-- ==== Sys2Proof/Word.lean ====
section
/-! DEFINITION. The byte, the only width the machine stores or moves, and register indices (00_scope.md R5, R6). -/

namespace Sys2Proof

/-- Every stored value is an unsigned 8-bit integer, bit 7 the most significant (R5, R6). -/
abbrev Byte := BitVec 8

/-- The index of a general register, 0 to 7 (10_state.md R11). -/
abbrev RegIndex := Fin 8

end Sys2Proof
end

