-- ==== Sys2Proof/Config.lean ====
section
/-! DEFINITION. The hardware's parameters (00_scope.md R4), and the enumerations its units exchange. No parameter is left
to an implementer and no value is free (93_implementation_defined.md section 1), so nothing here is opaque. -/

namespace Sys2Proof

/-- `MEM_SIZE`: the number of memory cells (R4). -/
def Config.memSize : Nat := 256

/-- `NREGS`: the number of general registers (R4). -/
def Config.numRegs : Nat := 8

/-- The address the program image is loaded from (R4). -/
def Config.loadAddress : Nat := 0

/-- The reset value of `pc` (R4). -/
def Config.resetPc : Byte := 0

/-- The reset content of every memory cell, "zero-initialized" (20_memory.md R30): what an unlisted address reads as. -/
def Config.resetCell : Byte := 0

/-- The decoder's `kind` output (40_fetch_decode_dispatch.md R74). -/
inductive Kind where
  | ldi
  | prn
  | hlt
  | mul
  deriving DecidableEq, Repr

/-- The ALU's operation select, an enumeration `ADD`, `MUL`, other (44_alu_mul.md R105, R109; D11). `other` carries the
name asked for, so that `UnsupportedOperation` (R108) has a caller. DESIGN CHOICE, safe: no opcode presents it (log 10). -/
inductive AluOp where
  | add
  | mul
  | other (name : String)
  deriving DecidableEq, Repr

end Sys2Proof
end

