-- ==== Sys2Proof/Machine/State.lean ====
section
/-! DEFINITION. The state of one CPU instance (10_state.md R10 to R20), why the model stops, and what a handler answers. -/

namespace Sys2Proof.Machine

/-- The synchronous exceptions of the running core with their payloads (60_exceptions.md R120). -/
inductive Cause where
  /-- The byte fetched at `pc` has no handler (R121). -/
  | unknownOpcode (opcode pc : Byte)
  /-- The ALU was asked for an operation it does not implement (R122). No opcode reaches it. -/
  | unsupportedOperation (name : String)
  /-- A register-index operand is 8 or more (R123). -/
  | registerIndexOutOfRange (index pc : Byte)
  deriving DecidableEq, Repr

/-- The run state (10_state.md R16). -/
inductive Status where
  | running
  | halted
  | error (cause : Cause)
  deriving DecidableEq, Repr

/-- Memory: the listed cells in strictly rising address order, none equal to the reset content. -/
abbrev Memory := List Host.Cell

/-- The complete state of one CPU instance: "five items and nothing else" (R10). -/
structure State where
  /-- `x[0..7]`, the general registers R0 to R7 (R11, R12). -/
  regs : Vector Byte 8
  /-- The program counter (R14). -/
  pc : Byte
  /-- `M[0..255]` (20_memory.md R30). -/
  mem : Memory
  /-- The run state (R16). -/
  status : Status
  /-- The output stream, oldest first (R18). -/
  out : List Byte
  deriving DecidableEq, Repr

/-- The state after reset, which is construction of a CPU instance (10_state.md R20; 70_reset_and_hazards.md R140). -/
def State.reset : State where
  regs := Vector.replicate 8 0
  pc := Config.resetPc
  mem := []
  status := .running
  out := []

/-- Why a step does not give a next state. The machine's own exceptions are NOT here: taking one is a next state whose
`status` is `error` (60_exceptions.md R127). -/
inductive Fault where
  /-- Raised by `step` alone, when `status` is not `running`: "no step is enabled" in a terminal state (R129; 10_state.md
  R16; D6). It carries the status the host receives (R128). DESIGN CHOICE, safe: the machine makes no move there (log 1). -/
  | notRunning (status : Status)
  deriving DecidableEq, Repr

/-- Why the model gives no meaning. -/
inductive Refusal where
  /-- Reserved for an arm of `exec` without a meaning. No arm raises it: every instruction has one. Safe. -/
  | notModelled (mnemonic : String)
  /-- Raised by `launch` alone: an image of more than 256 bytes "is refused (not truncated, not wrapped)" (20_memory.md
  R40; D8). Safe (log 8). -/
  | imageTooLong (length : Nat)
  deriving DecidableEq, Repr

/-- What a handler answers (40_fetch_decode_dispatch.md R76). -/
inductive ControlSignal where
  | continue
  | halt
  | fault (cause : Cause)
  deriving DecidableEq, Repr

/-- The dispatcher's outputs of one step (R79): the register write port, the output port, the program counter's advance
and the control signal. The `none` of a port is its enable or valid bit at 0. -/
structure Effects where
  /-- `w_en`, `w_idx`, `w_data`. -/
  write : Option (RegIndex × Byte)
  /-- `out_valid`, `out_data`. -/
  emit : Option Byte
  /-- `pc_adv_en`, `pc_adv_amt`. -/
  advance : Option (BitVec 2)
  /-- `signal`. -/
  signal : ControlSignal
  deriving DecidableEq, Repr

end Sys2Proof.Machine
end

