-- ==== Sys2Proof/Machine/Ops.lean ====
section
/-! DEFINITION. The named operations over memory, registers, the program counter, the output stream and the run state;
taking an exception; and the end of a step, which applies a handler's effects together. -/

namespace Sys2Proof.Machine

/-! ### Memory (20_memory.md R30 to R33) -/

/-- The cell at an address: the byte last written, else the reset content (R31). -/
def Memory.read (m : Memory) (address : Nat) : Byte :=
  match m with
  | [] => Config.resetCell
  | (a, v) :: rest => if a = address then v else Memory.read rest address

/-- Lists a cell at its place in rising address order. -/
def Memory.insert (m : Memory) (address : Nat) (value : Byte) : Memory :=
  match m with
  | [] => [(address, value)]
  | (a, v) :: rest =>
    if address < a then (address, value) :: (a, v) :: rest else (a, v) :: Memory.insert rest address value

/-- Unlists an address, which makes it read as the reset content. -/
def Memory.erase (m : Memory) (address : Nat) : Memory := m.filter fun cell => cell.1 != address

/-- Writes one cell and no other (R32); a cell that holds the reset content is not listed. -/
def Memory.write (m : Memory) (address : Nat) (value : Byte) : Memory :=
  if value = Config.resetCell then m.erase address else (m.erase address).insert address value

/-- The canonical form: addresses strictly rising, all inside the 256 cells, no cell listed at the reset content. -/
abbrev Memory.wf (m : Memory) : Prop :=
  m.Pairwise (fun c d => c.1 < d.1) ∧ ∀ c ∈ m, c.1 < Config.memSize ∧ c.2 ≠ Config.resetCell

/-- `MemRead(a, 1)` (00_scope.md R7; 20_memory.md R31). An address is 8 bits, so it is never out of range (R33). -/
def State.memRead (s : State) (address : Byte) : Byte := s.mem.read address.toNat

/-- `MemWrite(a, 1, v)` (00_scope.md R7; 20_memory.md R32). Only the loader and the placing of a fetch word use it (R35). -/
def State.memWrite (s : State) (address value : Byte) : State :=
  { s with mem := s.mem.write address.toNat value }

/-! ### `register_file` (10_state.md R11 to R13) -/

/-- A read port (R13): the register's value before the step. -/
def State.getReg (s : State) (i : RegIndex) : Byte := s.regs[i]

/-- The write port with `w_en = 1` (R13): one register changes and no other. -/
def State.setReg (s : State) (i : RegIndex) (value : Byte) : State :=
  { s with regs := s.regs.set i value }

/-- The write port (R13): when `w_en = 0` no register changes. -/
def State.writePort (s : State) (port : Option (RegIndex × Byte)) : State :=
  match port with
  | none => s
  | some (i, value) => s.setReg i value

/-! ### `program_counter` (10_state.md R14, R15; 40_fetch_decode_dispatch.md R83) -/

/-- `pc <- (pc + amount) mod 256` when the advance is enabled, else `pc` is unchanged (R83; D2, log 2). -/
def State.advancePc (s : State) (amount : Option (BitVec 2)) : State :=
  match amount with
  | none => s
  | some n => { s with pc := s.pc + n.setWidth 8 }

/-! ### The output port (10_state.md R18) -/

/-- `Emit(v)` when the port is valid: append one byte, which cannot fail or block (R18; D5, log 4). -/
def State.emit (s : State) (port : Option Byte) : State :=
  match port with
  | none => s
  | some value => { s with out := s.out ++ [value] }

/-! ### The run state, and taking an exception (60_exceptions.md R127) -/

/-- `raise E(info)`: "`status <- Error(E(info))`. Nothing else changes" (R127; D6, log 5). There is no return from it
(R129): a terminal state is left by reset only (70_reset_and_hazards.md R142), which is `State.reset`. -/
def State.raise (s : State) (cause : Cause) : State := { s with status := .error cause }

/-- The clean stop (40_fetch_decode_dispatch.md R78). -/
def State.halt (s : State) : State := { s with status := .halted }

/-- The reaction to a handler's signal (R78). -/
def State.react (s : State) (signal : ControlSignal) : State :=
  match signal with
  | .continue => s
  | .halt => s.halt
  | .fault cause => s.raise cause

/-! ### The end of a step (40_fetch_decode_dispatch.md R82) -/

/-- The effects of a handler that signals `Fault(e)`: it has changed no state (R76). -/
def Effects.fault (cause : Cause) : Effects :=
  { write := none, emit := none, advance := none, signal := .fault cause }

/-- All writes of a step take effect together (R82); the handler read the state before them. -/
def State.commit (s : State) (e : Effects) : State :=
  (((s.writePort e.write).emit e.emit).advancePc e.advance).react e.signal

end Sys2Proof.Machine
end

