-- ==== Sys2Proof/Machine/Operands.lean ====
section
/-! DEFINITION. The operand forms (30_encoding.md R54, R55): a register index is a whole byte, checked before the
instruction has any effect; an immediate is a whole byte used as it is. -/

namespace Sys2Proof.Machine

/-- The register a register-index operand names: 0 to 7, and none for 8 to 255 (R54). The byte is not masked. -/
def regOperand (operand : Byte) : Option RegIndex :=
  if h : operand.toNat < 8 then some ⟨operand.toNat, h⟩ else none

/-- The value of an immediate operand: "no extension, no scaling and no shift" (R55). -/
def immOperand (operand : Byte) : Byte := operand

/-- The index check of one operand: the handler goes on with the register, or answers
`Fault(RegisterIndexOutOfRange(operand, pc))` with no state changed (60_exceptions.md R123; D4, log 3). -/
def withRegister (operand pc : Byte) (handler : RegIndex → Effects) : Effects :=
  match regOperand operand with
  | none => .fault (.registerIndexOutOfRange operand pc)
  | some i => handler i

end Sys2Proof.Machine
end

