-- ==== Sys2Proof/Machine/Alu.lean ====
section
/-! DEFINITION. The `alu` unit (44_alu_mul.md R105 to R109): combinational, no state and no flags. -/

namespace Sys2Proof.Machine

/-- The name an operation is reported by in `UnsupportedOperation(name)` (60_exceptions.md R122). -/
def aluOpName : AluOp → String
  | .add => "ADD"
  | .mul => "MUL"
  | .other name => name

/-- `alu_result`, or `none` for `alu_unsupported = 1` (R109): the exact natural-number result reduced modulo 256
(R106, R107); any operation but `ADD` and `MUL` is unsupported (R108). -/
def alu (op : AluOp) (va vb : Byte) : Option Byte :=
  match op with
  | .mul => some (BitVec.ofNat 8 (va.toNat * vb.toNat % 256))
  | .add => some (BitVec.ofNat 8 ((va.toNat + vb.toNat) % 256))
  | .other _ => none

/-- `ALU.apply(op, ia, ib)` of the source's contract (R105): both registers are read before the write, the result goes to
the first-named register, and an unsupported operation writes nothing. -/
def State.aluApply (s : State) (op : AluOp) (ia ib : RegIndex) : Except Cause State :=
  match alu op (s.getReg ia) (s.getReg ib) with
  | none => .error (.unsupportedOperation (aluOpName op))
  | some result => .ok (s.setReg ia result)

/-- The handler of an instruction that performs an ALU operation on two registers (R110 for `MUL`): `a` is checked
first, `b` second, the operation last (60_exceptions.md R126; D9, log 9); the instruction's width is 3. -/
def aluHandler (op : AluOp) (a b : Byte) (s : State) : Effects :=
  withRegister a s.pc fun ia =>
    withRegister b s.pc fun ib =>
      match alu op (s.getReg ia) (s.getReg ib) with
      | none => .fault (.unsupportedOperation (aluOpName op))
      | some result =>
        { write := some (ia, result), emit := none, advance := some 3, signal := .continue }

end Sys2Proof.Machine
end

