-- ==== Sys2Proof/Machine/Arithmetic.lean ====
section
/-! DEFINITION. Arithmetic: `MUL` (44_alu_mul.md). -/

namespace Sys2Proof.Machine

/-- The `MUL` handler (R110): the ALU's `MUL` on the two registers. -/
def handleMul (regA regB : Byte) (s : State) : Effects := aluHandler .mul regA regB s

/-- `MUL regA, regB` (R110). -/
def execMul (regA regB : Byte) (s : State) : Host.Outcome State Fault Refusal :=
  .next (s.commit (handleMul regA regB s))

end Sys2Proof.Machine
end

