-- ==== Sys2Proof/Machine/DataMovement.lean ====
section
/-! DEFINITION. Data movement: `LDI` (41_ldi.md). -/

namespace Sys2Proof.Machine

/-- The `LDI` handler (R90): `x[a] <- b`, width 3. -/
def handleLdi (regIndex immediate : Byte) (s : State) : Effects :=
  withRegister regIndex s.pc fun i =>
    { write := some (i, immOperand immediate), emit := none, advance := some 3, signal := .continue }

/-- `LDI regIndex, immediate` (R90). -/
def execLdi (regIndex immediate : Byte) (s : State) : Host.Outcome State Fault Refusal :=
  .next (s.commit (handleLdi regIndex immediate s))

end Sys2Proof.Machine
end

