-- ==== Sys2Proof/Machine/Output.lean ====
section
/-! DEFINITION. Output: `PRN` (42_prn.md). -/

namespace Sys2Proof.Machine

/-- The `PRN` handler (R95): `Emit(x[a])`, width 2. -/
def handlePrn (regIndex : Byte) (s : State) : Effects :=
  withRegister regIndex s.pc fun i =>
    { write := none, emit := some (s.getReg i), advance := some 2, signal := .continue }

/-- `PRN regIndex` (R95). -/
def execPrn (regIndex : Byte) (s : State) : Host.Outcome State Fault Refusal :=
  .next (s.commit (handlePrn regIndex s))

end Sys2Proof.Machine
end

