-- ==== Sys2Proof/Machine/System.lean ====
section
/-! DEFINITION. System: `HLT` (43_hlt.md). -/

namespace Sys2Proof.Machine

/-- The `HLT` handler (R100): it answers `Halt`, always, and does not advance `pc` (C2). -/
def handleHlt (_ : State) : Effects :=
  { write := none, emit := none, advance := none, signal := .halt }

/-- `HLT` (R100). -/
def execHlt (s : State) : Host.Outcome State Fault Refusal :=
  .next (s.commit (handleHlt s))

end Sys2Proof.Machine
end

