-- ==== Sys2Proof/Syntax.lean ====
section
/-! DEFINITION. The instructions: one constructor per row of spec/opcode_table.json (30_encoding.md R56). -/

namespace Sys2Proof

/-- An instruction with its operand bytes as they stand in memory. A register operand is the WHOLE byte (R54): the values
8 to 255 are operands too, and executing them raises `RegisterIndexOutOfRange`. -/
inductive Instr where
  /-- `LDI regIndex, immediate` (41_ldi.md R90). -/
  | ldi (regIndex immediate : Byte)
  /-- `PRN regIndex` (42_prn.md R95). -/
  | prn (regIndex : Byte)
  /-- `HLT` (43_hlt.md R100). -/
  | hlt
  /-- `MUL regA, regB` (44_alu_mul.md R110); `regA` is the destination. -/
  | mul (regA regB : Byte)
  deriving DecidableEq, Repr

end Sys2Proof
end

