-- ==== Sys2Proof/Machine/Dispatch.lean ====
section
/-! DEFINITION. Handler selection: each instruction has exactly one handler (40_fetch_decode_dispatch.md R75). -/

namespace Sys2Proof.Machine

def exec (i : Instr) (s : State) : Host.Outcome State Fault Refusal :=
  match i with
  | .ldi regIndex immediate => Sys2Proof.Machine.execLdi regIndex immediate s
  | .prn regIndex => Sys2Proof.Machine.execPrn regIndex s
  | .hlt => Sys2Proof.Machine.execHlt s
  | .mul regA regB => Sys2Proof.Machine.execMul regA regB s

end Sys2Proof.Machine
end

