-- ==== Sys2Proof/WellFormed.lean ====
section
/-! DEFINITION. Which instructions name only registers that exist (30_encoding.md R54), and which operands an
instruction has (10_state.md R12). An ill-formed instruction still decodes and runs: it raises
`RegisterIndexOutOfRange` (60_exceptions.md R123). -/

namespace Sys2Proof

/-- The kind of an instruction (40_fetch_decode_dispatch.md R74). -/
def Instr.kind : Instr → Kind
  | .ldi _ _ => .ldi
  | .prn _ => .prn
  | .hlt => .hlt
  | .mul _ _ => .mul

/-- The register-index operands, in the order they are checked (R54, 60_exceptions.md R126). -/
def Instr.registerOperands : Instr → List Byte
  | .ldi r _ => [r]
  | .prn r => [r]
  | .hlt => []
  | .mul a b => [a, b]

/-- The register operand an instruction writes, if it writes one (10_state.md R12, last table). -/
def Instr.destination : Instr → Option Byte
  | .ldi r _ => some r
  | .prn _ => none
  | .hlt => none
  | .mul a _ => some a

/-- The immediate operand: only `LDI` has one (30_encoding.md R55). -/
def Instr.immediate : Instr → Option Byte
  | .ldi _ v => some v
  | .prn _ => none
  | .hlt => none
  | .mul _ _ => none

/-- A register-index operand that names a register: 0 to 7 (R54). -/
def validRegister (operand : Byte) : Bool := decide (operand.toNat < Config.numRegs)

/-- Every register-index operand names a register. -/
def Instr.wellFormed (i : Instr) : Bool := i.registerOperands.all validRegister

end Sys2Proof
end

