-- ==== Sys2Proof/Decode.lean ====
section
/-! DEFINITION. The decoder unit, decoding of byte sequences, and the encoder
(30_encoding.md R50 to R59; 40_fetch_decode_dispatch.md R72, R74). -/

namespace Sys2Proof

/-- The decoder's outputs for a known opcode (R74). The output `known` is the `some` of `decoder`. -/
structure Decoded where
  kind : Kind
  nops : BitVec 2
  width : BitVec 2
  usesAlu : Bool
  /-- `none` where R74 says "otherwise not used". -/
  aluOp : Option AluOp
  deriving DecidableEq, Repr

/-- Why a byte sequence is no instruction. -/
inductive DecodeError where
  /-- There is no byte at all. -/
  | noBytes
  /-- The first byte is none of the four opcodes (R57). -/
  | unknownOpcode (opcode : Byte)
  /-- The opcode is known and one of its operand bytes is missing (never so in the machine, whose fetch reads three bytes). -/
  | truncated (opcode : Byte)
  deriving DecidableEq, Repr

/-- The fixed opcode table, keyed by the whole opcode byte (R56; 10_state.md R19). -/
def opcodeTable : List (Byte × Kind) :=
  [(0x82#8, .ldi), (0x47#8, .prn), (0x01#8, .hlt), (0xA2#8, .mul)]

/-- The table's handler kind for an opcode byte: all eight bits are compared (R72). -/
def lookupKind (opcode : Byte) : List (Byte × Kind) → Option Kind
  | [] => none
  | (key, kind) :: rest => if opcode = key then some kind else lookupKind opcode rest

/-- `opcode[7:6]`, the operand count (R51). -/
def operandCount (opcode : Byte) : BitVec 2 := opcode.extractLsb' 6 2

/-- The ALU operation a kind asks for: `MUL` for `MUL` only (R74). -/
def Kind.aluOp : Kind → Option AluOp
  | .ldi => none
  | .prn => none
  | .hlt => none
  | .mul => some .mul

/-- The `decoder`: `none` is `known = 0` (R72, R74). -/
def decoder (opcode : Byte) : Option Decoded :=
  match lookupKind opcode opcodeTable with
  | none => none
  | some kind => some {
      kind := kind
      nops := operandCount opcode
      width := operandCount opcode + 1
      usesAlu := kind.aluOp.isSome
      aluOp := kind.aluOp }

/-- The instruction of a kind with the fetched bytes `operand_a` and `operand_b`; bytes it does not use are ignored (R58). -/
def Kind.toInstr (kind : Kind) (a b : Byte) : Instr :=
  match kind with
  | .ldi => .ldi a b
  | .prn => .prn a
  | .hlt => .hlt
  | .mul => .mul a b

/-- Decodes the instruction at the head of a byte sequence and returns it with the bytes after it (R50, R51, R59). -/
def decode (bytes : List Byte) : Except DecodeError (Instr × List Byte) :=
  match bytes with
  | [] => .error .noBytes
  | opcode :: rest =>
    match decoder opcode with
    | none => .error (.unknownOpcode opcode)
    | some d =>
      if rest.length < d.nops.toNat then .error (.truncated opcode)
      else .ok (d.kind.toInstr (rest.getD 0 0) (rest.getD 1 0), rest.drop d.nops.toNat)

/-- The bytes of an instruction in ascending address order (R51, R56). -/
def encode : Instr → List Byte
  | .ldi r v => [0x82#8, r, v]
  | .prn r => [0x47#8, r]
  | .hlt => [0x01#8]
  | .mul a b => [0xA2#8, a, b]

/-- Byte `k` of an instruction whose bits spec/opcode_table.json numbers from the first byte's bit 0: bits `8k+7..8k`,
where the bits from `nbits` on are zero. -/
def tableByte (nbits w k : Nat) : Byte := BitVec.ofNat 8 (w % 2 ^ nbits / 2 ^ (8 * k))

/-- The longest instruction's three bytes of a table word, the first at the lowest address (20_memory.md R36). -/
def tableBytes (nbits w : Nat) : List Byte := [tableByte nbits w 0, tableByte nbits w 1, tableByte nbits w 2]

/-- The instruction `decode` reads from a word numbered as spec/opcode_table.json numbers its bits. -/
def decodeTableWord (nbits w : Nat) : Option Instr :=
  match decode (tableBytes nbits w) with
  | .ok (i, _) => some i
  | .error _ => none

end Sys2Proof
end

