-- ==== Sys2Proof/Machine/Fetch.lean ====
section
/-! DEFINITION. The `fetch_unit` (40_fetch_decode_dispatch.md R71, R73, R84) and the step as one piece (R81). -/

namespace Sys2Proof.Machine

/-- The opcode byte, `M[pc]` (R71). -/
def State.opcode (s : State) : Byte := s.memRead s.pc

/-- `operand_a`, `M[(pc + 1) mod 256]` (R73; D3, log 2). -/
def State.operandA (s : State) : Byte := s.memRead (s.pc + 1)

/-- `operand_b`, `M[(pc + 2) mod 256]` (R73; D3, log 2). -/
def State.operandB (s : State) : Byte := s.memRead (s.pc + 2)

/-- The instruction at `pc`, if its opcode is known (R72, R73). -/
def State.fetchInstr (s : State) : Option Instr :=
  (decoder s.opcode).map fun d => d.kind.toInstr s.operandA s.operandB

/-- `Step()` (R81) over a given handler selection: enabled only when `status = Running` (R70); an unknown opcode raises
`UnknownOpcode(opcode, pc)` and does nothing else (R72). -/
def stepWith (run : Instr → State → Host.Outcome State Fault Refusal) (s : State) :
    Host.Outcome State Fault Refusal :=
  match s.status with
  | .running =>
    match s.fetchInstr with
    | none => .next (s.raise (.unknownOpcode s.opcode s.pc))
    | some i => run i s
  | .halted => .fault (.notRunning .halted)
  | .error cause => .fault (.notRunning (.error cause))

/-- Stores bytes at ascending addresses modulo 256. -/
def State.storeBytes (s : State) (address : Byte) : List Byte → State
  | [] => s
  | b :: rest => (s.memWrite address b).storeBytes (address + 1) rest

/-- The state with an instruction's bytes stored where the next step fetches, and the run state in which a step exists
(R70); a state that is `Running` keeps everything else (log 7). -/
def State.placeFetch (s : State) (bytes : List Byte) : State :=
  { s.storeBytes s.pc bytes with status := .running }

end Sys2Proof.Machine
end

