-- ==== Sys2Proof/Machine/Step.lean ====
section
/-! DEFINITION. One step of the core (40_fetch_decode_dispatch.md R70, R81). -/

namespace Sys2Proof.Machine

/-- One step: one instruction or one exception; no step exists unless the core is running (R70). -/
def step (s : State) : Host.Outcome State Fault Refusal := stepWith exec s

/-- `s` with the instruction of a table word stored where `step` fetches its next instruction. -/
def State.withFetchWord (s : State) (nbits w : Nat) : State := s.placeFetch (tableBytes nbits w)

end Sys2Proof.Machine
end

