-- ==== Sys2Proof/Machine/Load.lean ====
section
/-! DEFINITION. Reset and program load by the host (20_memory.md R40; 70_reset_and_hazards.md R140, R141). -/

namespace Sys2Proof.Machine

/-- Writes the bytes of an image at ascending addresses (R40). -/
def Memory.load (m : Memory) (address : Nat) : List Byte → Memory
  | [] => m
  | b :: rest => (m.write address b).load (address + 1) rest

/-- "The order is: reset, load, run" (R141): the state in which a run of the image starts. An image of more than 256
bytes is refused (R40; D8, log 8). -/
def launch (image : List Byte) : Host.Outcome State Fault Refusal :=
  if image.length ≤ Config.memSize then
    .next { State.reset with mem := State.reset.mem.load Config.loadAddress image }
  else .refused (.imageTooLong image.length)

end Sys2Proof.Machine
end

