-- ==== Sys2Proof/Machine/Ports.lean ====
section
/-! DEFINITION. The block's ports as functions of the state: the dispatcher's outputs in a step
(40_fetch_decode_dispatch.md R79), the output port (10_state.md R18) and the suggested result ports
(60_exceptions.md R135). The split into ports is the spec's own (D1, D10; log 14). -/

namespace Sys2Proof.Machine

/-- The handler of an instruction (R75). -/
def handlerOf (i : Instr) (s : State) : Effects :=
  match i with
  | .ldi regIndex immediate => handleLdi regIndex immediate s
  | .prn regIndex => handlePrn regIndex s
  | .hlt => handleHlt s
  | .mul regA regB => handleMul regA regB s

/-- The dispatcher's outputs in the step at `s` (R79); `none` when no step is enabled. DESIGN CHOICE, safe: with an unknown
opcode no handler runs (R72) and R76 gives `Fault(e)` two other causes only, so the spec gives `signal` no value there; the
model drives `Fault(UnknownOpcode(opcode, pc))`, with no port enabled, whose reaction is that step's effect (log 19). -/
def State.dispatcherOut (s : State) : Option Effects :=
  match s.status with
  | .running =>
    match s.fetchInstr with
    | none => some (.fault (.unknownOpcode s.opcode s.pc))
    | some i => some (handlerOf i s)
  | .halted => none
  | .error _ => none

/-- `out_valid` and `out_data` in the step at `s` (R18). -/
def State.outPort (s : State) : Option Byte := s.dispatcherOut.bind Effects.emit

/-- The result ports (R135). A port that is not valid is `none`. -/
structure ResultPorts where
  status : BitVec 2
  errCause : BitVec 2
  errOpcode : Option Byte
  errIndex : Option Byte
  errPc : Byte
  deriving DecidableEq, Repr

/-- The suggested binary form of the run state (R135). -/
def State.resultPorts (s : State) : ResultPorts :=
  match s.status with
  | .running => { status := 0, errCause := 0, errOpcode := none, errIndex := none, errPc := s.pc }
  | .halted => { status := 1, errCause := 0, errOpcode := none, errIndex := none, errPc := s.pc }
  | .error (.unknownOpcode opcode _) =>
    { status := 2, errCause := 1, errOpcode := some opcode, errIndex := none, errPc := s.pc }
  | .error (.unsupportedOperation _) =>
    { status := 2, errCause := 2, errOpcode := none, errIndex := none, errPc := s.pc }
  | .error (.registerIndexOutOfRange index _) =>
    { status := 2, errCause := 3, errOpcode := none, errIndex := some index, errPc := s.pc }

end Sys2Proof.Machine
end

