-- ==== Sys2Proof/Machine/Run.lean ====
section
/-! DEFINITION. The run under fuel (40_fetch_decode_dispatch.md R80) and what the host receives (60_exceptions.md R128). -/

namespace Sys2Proof.Machine

/-- `run` for at most `fuel` steps: repeats the step while `status = Running` (R80) and keeps the terminal state, which
is frozen (10_state.md R16). -/
def runFor : Nat → State → State
  | 0, s => s
  | fuel + 1, s =>
    match step s with
    | .next t => runFor fuel t
    | .fault _ => s
    | .refused _ => s

/-- What the host receives at the end of a run: the final `status` and `out` (R128; 70_reset_and_hazards.md R147);
nothing while the core is running. -/
def State.hostReport (s : State) : Option (Status × List Byte) :=
  if s.status = .running then none else some (s.status, s.out)

end Sys2Proof.Machine
end

