-- ==== Sys2Proof/Machine/Text.lean ====
section
/-! DEFINITION. The text forms the spec gives: the sink's rendering of the output stream (42_prn.md R96) and the written
form of an instruction (30_encoding.md R60). -/

namespace Sys2Proof.Machine

/-- The decimal digits of a byte, most significant first: one to three, no leading zero (R96). -/
def decimalDigits (v : Byte) : List Nat :=
  let n := v.toNat
  if n < 10 then [n]
  else if n < 100 then [n / 10, n % 10]
  else [n / 100, n / 10 % 10, n % 10]

/-- The decimal numeral of a byte (R96). -/
def decimal (v : Byte) : List Char := (decimalDigits v).map fun d => Char.ofNat (48 + d)

/-- The text the sink shows for an output stream: one numeral and one line break per value, in order (R96). The line
break is a parameter, since the source names no character (U14; log 13). -/
def renderOut (lineBreak : List Char) : List Byte → List Char
  | [] => []
  | v :: rest => decimal v ++ lineBreak ++ renderOut lineBreak rest

/-- The written name of the register an operand byte names, R0 to R7 (R60; 10_state.md R12). DESIGN CHOICE, safe: for a byte
8 to 255, which names no register, the spec gives no written form, and the same form is written with its value (log 18). -/
def registerText (operand : Byte) : List Char := 'R' :: decimal operand

/-- The written form of an instruction (R60): the first operand is the destination. A register operand that names no
register is written as `registerText` says (log 18). -/
def instrText : Instr → List Char
  | .ldi r v => "LDI ".toList ++ registerText r ++ [','] ++ decimal v
  | .prn r => "PRN ".toList ++ registerText r
  | .hlt => "HLT".toList
  | .mul a b => "MUL ".toList ++ registerText a ++ [','] ++ registerText b

end Sys2Proof.Machine
end

