-- ==== Sys2Proof/Safety.lean ====
section
/-! DEFINITION. What counts as the end of a run and as a good end (00_scope.md section 6), and the invariants the claims
use. -/

namespace Sys2Proof.Safety

open Sys2Proof.Machine

/-- "The end of a run is `status != Running`." -/
def Ended (s : State) : Prop := s.status ≠ .running

/-- "A good end is `status = Halted`." -/
def GoodEnd (s : State) : Prop := s.status = .halted

/-- What a reported cause says of the state it is reported in: the `pc` is the faulting instruction's, and the byte
blamed is the one fetched there (60_exceptions.md R121, R123, R126, R127); `UnsupportedOperation` is never reported
(R122). -/
def CauseTrue (s : State) : Cause → Prop
  | .unknownOpcode opcode pc => pc = s.pc ∧ opcode = s.opcode ∧ decoder opcode = none
  | .registerIndexOutOfRange index pc =>
    pc = s.pc ∧ 8 ≤ index.toNat ∧
      ∃ i, s.fetchInstr = some i ∧ i.registerOperands.find? (fun r => !validRegister r) = some index
  | .unsupportedOperation _ => False

/-- The run state tells the truth: `halted` only at an `HLT`, an error only with its cause at `pc` (10_state.md R15,
R16). -/
def StatusTrue (s : State) : Prop :=
  match s.status with
  | .running => True
  | .halted => s.opcode = 0x01#8
  | .error cause => CauseTrue s cause

/-- The machine's invariant: memory in canonical form and a truthful run state. -/
def Inv (s : State) : Prop := s.mem.wf ∧ StatusTrue s

/-- Two states with the same memory, `pc` and run state; registers and output may differ. -/
def SameControl (s t : State) : Prop := s.pc = t.pc ∧ s.mem = t.mem ∧ s.status = t.status

end Sys2Proof.Safety
end

