-- ==== Sys2Proof/Certificates/Slice0/Obligations.lean ====
section
/-! DEFINITION. The statements for the provers. Where a statement rests on a choice of the spec's own (a decision D<n> of
92_eei_decisions.md) or of the model (a log entry), its docstring says so. `pc + n` is addition of bytes, modulo 256 (D2,
D3; log 2). -/

open Sys2Proof Sys2Proof.Machine Sys2Proof.Safety

/-! ### Encoding and decoding -/

/-- 30_encoding.md R56: the four rows, each decoded from its bytes written out from the encoding, with the bytes that
follow left over. -/
def Obligations.DecodesTheWrittenEncodings : Prop :=
  decode [0b10000010, 0b00000000, 0b00001000] = .ok (.ldi 0 8, []) ∧
  decode [0b01000111, 0b00000101] = .ok (.prn 5, []) ∧
  decode [0b00000001] = .ok (.hlt, []) ∧
  decode [0b10100010, 0b00000111, 0b00000110] = .ok (.mul 7 6, []) ∧
  decode [0b00000001, 0b11111111, 0b11111111] = .ok (.hlt, [0xFF, 0xFF])

/-- 40_fetch_decode_dispatch.md R74: the decoder's outputs for the four known opcodes, and that `nops` is `opcode[7:6]`
and `width` is one more whenever the opcode is known. The packaging as ports is the spec's own (D1). -/
def Obligations.DecoderOutputsPerOpcode : Prop :=
  decoder 0x82 = some { kind := .ldi, nops := 2, width := 3, usesAlu := false, aluOp := none } ∧
  decoder 0x47 = some { kind := .prn, nops := 1, width := 2, usesAlu := false, aluOp := none } ∧
  decoder 0x01 = some { kind := .hlt, nops := 0, width := 1, usesAlu := false, aluOp := none } ∧
  decoder 0xA2 = some { kind := .mul, nops := 2, width := 3, usesAlu := true, aluOp := some .mul } ∧
  ∀ opcode d, decoder opcode = some d →
    d.nops.toNat = opcode.toNat / 64 ∧ d.width.toNat = opcode.toNat / 64 + 1

/-- Decoding and encoding are inverse to each other (30_encoding.md R50, R51, R54, R56). Decoding an encoded instruction
gives it back with the bytes after it, for EVERY instruction, operand bytes that name no register included; and whatever
decodes is the encoding of what it decodes to, so no byte sequence has two readings and no bit of one is dropped. -/
def Obligations.DecodeAndEncodeAreInverse : Prop :=
  (∀ (i : Instr) (rest : List Byte), decode (encode i ++ rest) = .ok (i, rest)) ∧
  ∀ (bytes : List Byte) (i : Instr) (rest : List Byte), decode bytes = .ok (i, rest) → bytes = encode i ++ rest

/-- Decoding fails by name, exactly so: on no byte, on an opcode byte outside the table (30_encoding.md R57, closed by
D15), or on a known opcode with fewer bytes after it than `opcode[7:6]` says. -/
def Obligations.DecodeRefusesByName : Prop :=
  ∀ (bytes : List Byte) (e : DecodeError), decode bytes = .error e ↔
    (bytes = [] ∧ e = .noBytes) ∨
    ∃ opcode rest, bytes = opcode :: rest ∧
      ((opcode ∉ [0x82#8, 0x47#8, 0x01#8, 0xA2#8] ∧ e = .unknownOpcode opcode) ∨
        (opcode ∈ [0x82#8, 0x47#8, 0x01#8, 0xA2#8] ∧ rest.length < opcode.toNat / 64 ∧ e = .truncated opcode))

/-! ### The step -/

/-- When the bytes at `pc`, `pc + 1`, `pc + 2` (modulo 256, D3) decode to an instruction, well-formed or not, a step of the
running core is `exec` of it and nothing around it: the handler itself advances `pc` (40_fetch_decode_dispatch.md R77). -/
def Obligations.StepRunsTheDecodedInstruction : Prop :=
  ∀ (s : State) (i : Instr) (rest : List Byte), s.status = .running →
    decode [s.memRead s.pc, s.memRead (s.pc + 1), s.memRead (s.pc + 2)] = .ok (i, rest) →
    step s = exec i s

/-- 40_fetch_decode_dispatch.md R72: which opcodes are known, and that an unknown one raises `UnknownOpcode(opcode, pc)`
and does nothing else. -/
def Obligations.UnknownOpcodeRaisesAndDoesNothingElse : Prop :=
  (∀ opcode : Byte, (decoder opcode).isSome = true ↔
    opcode = 0x82 ∨ opcode = 0x47 ∨ opcode = 0x01 ∨ opcode = 0xA2) ∧
  ∀ s : State, s.status = .running → decoder (s.memRead s.pc) = none →
    step s = .next { s with status := .error (.unknownOpcode (s.memRead s.pc) s.pc) }

/-- 30_encoding.md R58: an operand byte that the instruction does not use has no effect, whatever it holds, and is no part
of the instruction. Every memory cell may change but the opcode's (`HLT`), or but the opcode's and `operand_a`'s (`PRN`). -/
def Obligations.UnusedOperandBytesHaveNoEffect : Prop :=
  (∀ a b : Byte, decode [0x01, a, b] = .ok (.hlt, [a, b]) ∧ decode [0x47, a, b] = .ok (.prn a, [b])) ∧
  ∀ (s : State) (m : Memory), s.status = .running →
    (s.memRead s.pc = 0x01 ∧ m.read s.pc.toNat = 0x01 ∨
      s.memRead s.pc = 0x47 ∧ m.read s.pc.toNat = 0x47 ∧
        m.read (s.pc + 1).toNat = s.memRead (s.pc + 1)) →
    ∃ t, step s = .next t ∧ step { s with mem := m } = .next { t with mem := m }

/-- A step reads no memory cell but `M[pc]`, `M[pc+1]`, `M[pc+2]` (20_memory.md R34), and none but `M[pc]` when the opcode
is unknown: whatever the other cells hold, it does the same. -/
def Obligations.StepReadsOnlyTheInstructionBytes : Prop :=
  ∀ (s : State) (m : Memory), s.status = .running → m.read s.pc.toNat = s.memRead s.pc →
    (decoder (s.memRead s.pc) = none ∨
      m.read (s.pc + 1).toNat = s.memRead (s.pc + 1) ∧ m.read (s.pc + 2).toNat = s.memRead (s.pc + 2)) →
    ∃ t, step s = .next t ∧ step { s with mem := m } = .next { t with mem := m }

/-- The running core always makes its step (10_state.md R16; 40_fetch_decode_dispatch.md R70), and in a terminal state
the model stops by name. That stop is the model's form of "no step" (D6; log 1). -/
def Obligations.StepExistsExactlyWhileRunning : Prop :=
  ∀ s : State, (s.status = .running → ∃ t, step s = .next t) ∧
    (s.status ≠ .running → step s = .fault (.notRunning s.status))

/-- 40_fetch_decode_dispatch.md R78: the reaction to a handler's signal, for every set of effects, and every instruction's
result is such a reaction to its handler. -/
def Obligations.StatusFollowsTheControlSignal : Prop :=
  (∀ (s : State) (e : Effects),
    (e.signal = .continue → (s.commit e).status = s.status) ∧
    (e.signal = .halt → (s.commit e).status = .halted) ∧
    ∀ c, e.signal = .fault c → (s.commit e).status = .error c) ∧
  ∀ (i : Instr) (s : State), exec i s = .next (s.commit (handlerOf i s))

/-- Which signal each handler answers (40_fetch_decode_dispatch.md R76): `HLT` always `Halt`; the others `Continue` with
their own width as the advance, or, on an operand that names no register (D4), `Fault` with no port enabled. -/
def Obligations.HandlersAnswerTheirSignals : Prop :=
  ∀ (i : Instr) (s : State),
    (i = .hlt → handlerOf i s = { write := none, emit := none, advance := none, signal := .halt }) ∧
    (i ≠ .hlt → i.wellFormed = true → (handlerOf i s).signal = .continue ∧
      ∃ w, (handlerOf i s).advance = some w ∧ w.toNat = (encode i).length) ∧
    (i.wellFormed = false → ∃ index, handlerOf i s = .fault (.registerIndexOutOfRange index s.pc))

/-! ### The instructions: what each does, and where it completes -/

/-- `LDI` completes for every register 0 to 7 and every immediate (41_ldi.md R90); the advance is modulo 256 (D2). -/
def Obligations.LdiWritesTheImmediate : Prop :=
  ∀ (r v : Byte) (s : State) (h : r.toNat < 8),
    exec (.ldi r v) s = .next { s with regs := s.regs.set r.toNat v h, pc := s.pc + 3 }

/-- 30_encoding.md R55: only `LDI` has an immediate, the whole byte after the register's; reading the register immediately
after it yields that byte, for every valid register and every immediate. -/
def Obligations.LdiImmediateIsReadBackWhole : Prop :=
  (∀ (i : Instr) (v : Byte), i.immediate = some v ↔ ∃ r, encode i = [0x82, r, v]) ∧
  ∀ (r : RegIndex) (v : Byte) (s : State), ∃ t, exec (.ldi (BitVec.ofNat 8 r) v) s = .next t ∧
    (t.getReg r).toNat = v.toNat % 256 ∧ t.getReg r = v

/-- `PRN` completes for every register 0 to 7 (42_prn.md R95); `Emit` appends and cannot fail (D5), the advance is modulo
256 (D2). -/
def Obligations.PrnEmitsTheRegister : Prop :=
  ∀ (r : Byte) (s : State) (h : r.toNat < 8),
    exec (.prn r) s = .next { s with out := s.out ++ [s.regs[r.toNat]], pc := s.pc + 2 }

/-- 43_hlt.md R100: `HLT` is the one byte `0x01`; it completes in every state, writes `status` only and leaves `pc` at its
own byte, whatever the following bytes hold. -/
def Obligations.HltHaltsAndKeepsEverythingElse : Prop :=
  encode .hlt = [0b00000001] ∧
  (∀ rest, decode (0b00000001 :: rest) = .ok (.hlt, rest)) ∧
  (∀ s : State, exec .hlt s = .next { s with status := .halted }) ∧
  (∀ s : State, s.status = .running → s.memRead s.pc = 0x01 → step s = .next { s with status := .halted }) ∧
  ∀ s t : State, s.status = .halted → step s ≠ .next t

/-- `MUL` completes for every two registers 0 to 7, the same one twice included (44_alu_mul.md R110): the destination is
the first-named register, both are read before the write, and the advance is modulo 256 (D2). -/
def Obligations.MulWritesTheProduct : Prop :=
  ∀ (a b : Byte) (s : State) (ha : a.toNat < 8) (hb : b.toNat < 8),
    exec (.mul a b) s = .next { s with
      regs := s.regs.set a.toNat (BitVec.ofNat 8 (s.regs[a.toNat].toNat * s.regs[b.toNat].toNat)) ha
      pc := s.pc + 3 }

/-- 44_alu_mul.md R106: the ALU's `MUL` is the exact product modulo 256, and the instruction leaves that in the destination
register with no trace of the high half: no other register, no memory cell, no output, no run state changes. -/
def Obligations.MulKeepsTheLowByteOfTheProduct : Prop :=
  (∀ va vb : Byte, ∃ r, alu .mul va vb = some r ∧ r.toNat = va.toNat * vb.toNat % 256) ∧
  ∀ (ia ib : RegIndex) (s : State), ∃ t,
    exec (.mul (BitVec.ofNat 8 ia) (BitVec.ofNat 8 ib)) s = .next t ∧
    (t.getReg ia).toNat = (s.getReg ia).toNat * (s.getReg ib).toNat % 256 ∧
    (∀ j, j ≠ ia → t.getReg j = s.getReg j) ∧
    t.mem = s.mem ∧ t.out = s.out ∧ t.status = s.status

/-- An operand byte of 8 or more makes `LDI` and `PRN` raise `RegisterIndexOutOfRange(index, pc)` before any effect. The
exception is the spec's own choice (D4; log 3; 60_exceptions.md R123). -/
def Obligations.LdiAndPrnRaiseOnABadIndex : Prop :=
  ∀ (r v : Byte) (s : State), 8 ≤ r.toNat →
    exec (.ldi r v) s = .next { s with status := .error (.registerIndexOutOfRange r s.pc) } ∧
    exec (.prn r) s = .next { s with status := .error (.registerIndexOutOfRange r s.pc) }

/-- `MUL` raises on `operand_a` first, whatever `operand_b` is, and on `operand_b` otherwise. The exception and the order are
the spec's own choices (D4, D9; log 3, log 9; 60_exceptions.md R123, R126). -/
def Obligations.MulRaisesOnTheFirstBadIndex : Prop :=
  (∀ (a b : Byte) (s : State), 8 ≤ a.toNat →
    exec (.mul a b) s = .next { s with status := .error (.registerIndexOutOfRange a s.pc) }) ∧
  ∀ (a b : Byte) (s : State), a.toNat < 8 → 8 ≤ b.toNat →
    exec (.mul a b) s = .next { s with status := .error (.registerIndexOutOfRange b s.pc) }

/-- Executing from a running state raises an index exception exactly when the instruction is ill-formed, and the operand
blamed is the first one, in the order of the checks, that names no register (D4, D9). -/
def Obligations.IndexExceptionExactlyWhenIllFormed : Prop :=
  ∀ (i : Instr) (s : State), s.status = .running → ∃ t, exec i s = .next t ∧
    (t.status = .running ∨ t.status = .halted ↔ i.wellFormed = true) ∧
    ∀ index pc, t.status = .error (.registerIndexOutOfRange index pc) ↔
      pc = s.pc ∧ i.registerOperands.find? (fun r => !validRegister r) = some index

/-! ### Frames -/

/-- `LDI` and `MUL`, every operand: `exec` gives a next state in which only the register that the first operand names may
differ; a bad operand leaves all eight. Memory, at every address, and the output are unchanged, and so is the run state
unless an operand is bad. -/
def Obligations.FrameOfTheRegisterWriters : Prop :=
  ∀ (i : Instr) (s t : State), (∃ r v, i = .ldi r v) ∨ (∃ a b, i = .mul a b) → exec i s = .next t →
    (∀ j : RegIndex, i.destination ≠ some (BitVec.ofNat 8 j) → t.getReg j = s.getReg j) ∧
    (i.wellFormed = false → t.regs = s.regs ∧ t.pc = s.pc) ∧
    (i.wellFormed = true → t.status = s.status) ∧
    (∀ a : Byte, t.memRead a = s.memRead a) ∧ t.out = s.out

/-- `PRN`, every operand: no register and no memory cell changes; the output keeps what it held; the run state is
unchanged unless the operand is bad, and then `pc` and the output are unchanged too. -/
def Obligations.FrameOfPrn : Prop :=
  ∀ (r : Byte) (s t : State), exec (.prn r) s = .next t →
    t.regs = s.regs ∧ (∀ a : Byte, t.memRead a = s.memRead a) ∧ s.out <+: t.out ∧
    (r.toNat < 8 → t.status = s.status) ∧ (8 ≤ r.toNat → t.pc = s.pc ∧ t.out = s.out)

/-- `HLT`: no register, no memory cell, neither `pc` nor the output changes. -/
def Obligations.FrameOfHlt : Prop :=
  ∀ s t : State, exec .hlt s = .next t →
    t.regs = s.regs ∧ t.pc = s.pc ∧ (∀ a : Byte, t.memRead a = s.memRead a) ∧ t.out = s.out

/-! ### The ALU -/

/-- The ALU adds modulo 256 (44_alu_mul.md R107), and no opcode selects that operation: the decoder presents `MUL` or
nothing (C3, D11, D15). -/
def Obligations.AluAddsAndNoOpcodeSelectsIt : Prop :=
  (∀ va vb : Byte, ∃ r, alu .add va vb = some r ∧ r.toNat = (va.toNat + vb.toNat) % 256) ∧
  ∀ opcode d, decoder opcode = some d → d.aluOp = none ∨ d.aluOp = some .mul

/-- A handler that asks the ALU for an operation other than `ADD` or `MUL` raises `UnsupportedOperation(name)` and changes
nothing else; asking for `ADD` or `MUL` does not raise it; no step of the fixed table reaches it (44_alu_mul.md R108,
60_exceptions.md R122, R127). The third constructor of the ALU's select is the model's choice, which the spec allows (D11;
log 10); that memory and output are kept is the spec's own choice (D6; log 5); that the exception is unreachable is marked
derived in R108. -/
def Obligations.UnsupportedOperationIsRaisedAndUnreachable : Prop :=
  (∀ (name : String) (a b : Byte) (s : State), a.toNat < 8 → b.toNat < 8 →
    s.commit (aluHandler (.other name) a b s) = { s with status := .error (.unsupportedOperation name) }) ∧
  (∀ (a b : Byte) (s : State) (name : String), s.status = .running →
    (s.commit (aluHandler .add a b s)).status ≠ .error (.unsupportedOperation name) ∧
    (s.commit (aluHandler .mul a b s)).status ≠ .error (.unsupportedOperation name)) ∧
  ∀ (s t : State) (name : String), step s = .next t → t.status ≠ .error (.unsupportedOperation name)

/-- "The architectural effect is the same" (44_alu_mul.md R105, C9): `MUL` on two registers is the source's `ALU.apply`
followed by the advance. What `ALU.apply` does: `MUL` and `ADD` write the first register only, another operation fails by
its name. The select as an enumeration is the spec's own choice (D11; log 10). -/
def Obligations.MulIsAluApplyThenAdvance : Prop :=
  (∀ (ia ib : RegIndex) (s : State), ∃ t, s.aluApply .mul ia ib = .ok t ∧
    exec (.mul (BitVec.ofNat 8 ia) (BitVec.ofNat 8 ib)) s = .next { t with pc := t.pc + 3 }) ∧
  ∀ (ia ib : RegIndex) (s : State) (name : String),
    s.aluApply .mul ia ib = .ok (s.setReg ia (s.getReg ia * s.getReg ib)) ∧
    s.aluApply .add ia ib = .ok (s.setReg ia (s.getReg ia + s.getReg ib)) ∧
    s.aluApply (.other name) ia ib = .error (.unsupportedOperation name)

/-- The arithmetic laws (44_alu_mul.md R111): units, zeros, commutation, and that the low byte is also the
two's-complement result, which the spec marks as derived. -/
def Obligations.ArithmeticLawsModulo256 : Prop :=
  ∀ x y : Byte,
    alu .mul x 0 = some 0 ∧ alu .mul 0 x = some 0 ∧ alu .mul x 1 = some x ∧ alu .mul x y = alu .mul y x ∧
    alu .add x 0 = some x ∧ alu .add x y = alu .add y x ∧
    (∃ p, alu .mul x y = some p ∧ p.toInt = (x.toInt * y.toInt).bmod 256) ∧
    ∃ q, alu .add x y = some q ∧ q.toInt = (x.toInt + y.toInt).bmod 256

/-! ### State: registers, memory, reset, load -/

/-- 10_state.md R11: a register reads 0 after reset, and afterwards the value last written to it; writing one changes no
other. -/
def Obligations.RegisterHoldsTheLastValueWritten : Prop :=
  (∀ i : RegIndex, State.reset.getReg i = 0) ∧
  ∀ (s : State) (i j : RegIndex) (v : Byte), (s.setReg i v).getReg j = if j = i then v else s.getReg j

/-- 20_memory.md R31, R32: a cell reads 0 after reset, and afterwards the byte last written to it; a write changes no other
cell and no other state. -/
def Obligations.MemoryHoldsTheLastByteWritten : Prop :=
  (∀ a : Byte, State.reset.memRead a = 0) ∧
  ∀ (s : State) (a b v : Byte), (s.memWrite a v).memRead b = (if b = a then v else s.memRead b) ∧
    ∃ m, s.memWrite a v = { s with mem := m }

/-- Equal contents are equal data: two memories in canonical form that read the same at every address are the same list
(the model's representation; 20_memory.md R30). -/
def Obligations.CanonicalMemoryIsItsContents : Prop :=
  ∀ m n : Memory, m.wf → n.wf → (∀ a : Byte, m.read a.toNat = n.read a.toNat) → m = n

/-- Every piece of state after reset (10_state.md R20; 70_reset_and_hazards.md R140). That memory is cleared and that `out` is
empty are the spec's own choices (D7, D5). -/
def Obligations.ResetLeavesTheStatedValues : Prop :=
  (∀ i : RegIndex, State.reset.getReg i = 0) ∧ State.reset.pc = 0 ∧
  (∀ a : Byte, State.reset.memRead a = 0) ∧ State.reset.status = .running ∧ State.reset.out = []

/-- The program load (20_memory.md R40): byte `k` of the image at address `k`, zeros above, everything else as after reset,
memory in canonical form; an image of more than 256 bytes is refused by name (D8; log 8). -/
def Obligations.LaunchLoadsTheImageOrRefuses : Prop :=
  (∀ image : List Byte, image.length ≤ 256 → ∃ s, launch image = .next s ∧
    (∀ a : Byte, s.memRead a = image.getD a.toNat 0) ∧ s.mem.wf ∧
    ∃ m, s = { State.reset with mem := m }) ∧
  ∀ image : List Byte, 256 < image.length → launch image = .refused (.imageTooLong image.length)

/-- A table word placed at the fetch is what the next step runs, at every `pc` (the wrap at 254 and 255 included, D3), and
placing it changes only memory in a running state. The placing is the model's own operation (log 7). -/
def Obligations.PlacedWordIsTheNextInstruction : Prop :=
  (∀ (s : State) (nbits w : Nat) (i : Instr), decodeTableWord nbits w = some i →
    step (s.withFetchWord nbits w) = exec i (s.withFetchWord nbits w)) ∧
  ∀ (s : State) (nbits w : Nat), s.status = .running → ∃ m, s.withFetchWord nbits w = { s with mem := m }

/-! ### Rules of the whole machine -/

/-- `pc` after any step (10_state.md R15): one plus the operand count in the opcode's two high bits further, modulo 256
(D2), while the core keeps running; unchanged by `HLT` and by every exception. -/
def Obligations.PcAdvancesByTheEncodedWidth : Prop :=
  ∀ s t : State, step s = .next t →
    (t.status = .running → t.pc.toNat = (s.pc.toNat + 1 + (s.memRead s.pc).toNat / 64) % 256) ∧
    (t.status ≠ .running → t.pc = s.pc)

/-- Only `HLT` halts, and it always does (10_state.md R16). -/
def Obligations.OnlyHltHalts : Prop :=
  ∀ s t : State, step s = .next t → (GoodEnd t ↔ s.memRead s.pc = 0x01)

/-- An exception is precise (60_exceptions.md R127): the step that takes it writes `status` and nothing else, and a recorded
`pc` is that of the instruction. That memory, `pc` and output are kept is the spec's own choice (D6; log 5). -/
def Obligations.ExceptionChangesOnlyTheStatus : Prop :=
  ∀ (s t : State) (c : Cause), step s = .next t → t.status = .error c →
    t = { s with status := .error c } ∧
    (∀ opcode pc, c = .unknownOpcode opcode pc → pc = s.pc ∧ opcode = s.memRead s.pc) ∧
    ∀ index pc, c = .registerIndexOutOfRange index pc → pc = s.pc ∧ 8 ≤ index.toNat

/-- Which exception a step raises, if any (60_exceptions.md R126): the opcode is tested first, whatever the operand bytes
hold; then the register operands in order. The order after the opcode is the spec's own choice (D9; log 9). -/
def Obligations.ChecksAreMadeInOrder : Prop :=
  ∀ s t : State, step s = .next t →
    (decoder (s.memRead s.pc) = none ↔ t.status = .error (.unknownOpcode (s.memRead s.pc) s.pc)) ∧
    ∀ i, s.fetchInstr = some i → ∀ index,
      (i.registerOperands.find? (fun r => decide (8 ≤ r.toNat)) = some index ↔
        t.status = .error (.registerIndexOutOfRange index s.pc))

/-- No instruction writes memory (20_memory.md R35, derived there from the opcode table): a step leaves it as it is, and so
does a run of any length. -/
def Obligations.NoInstructionWritesMemory : Prop :=
  (∀ s t : State, step s = .next t → t.mem = s.mem) ∧ ∀ (n : Nat) (s : State), (runFor n s).mem = s.mem

/-- The output grows by exactly what the output port shows, which is valid exactly in a step that executes `PRN` of a
register 0 to 7, and over a run nothing already emitted is lost (10_state.md R18; D5). -/
def Obligations.OutputGrowsByThePortAlone : Prop :=
  (∀ s t : State, step s = .next t → t.out = s.out ++ s.outPort.toList ∧
    ∀ v, s.outPort = some v ↔ ∃ (r : Byte) (h : r.toNat < 8), s.fetchInstr = some (.prn r) ∧ v = s.regs[r.toNat]) ∧
  ∀ (n : Nat) (s : State), s.out <+: (runFor n s).out

/-- The step is the commit of the dispatcher's outputs (40_fetch_decode_dispatch.md R79, R82): the units' ports and the
pseudocode agree, and no port is driven when no step is enabled. The ports are the spec's own choice (D1; log 14), the signal
at an unknown opcode the model's (log 19). -/
def Obligations.StepCommitsTheDispatcherOutputs : Prop :=
  ∀ s : State, (∀ e, s.dispatcherOut = some e → step s = .next (s.commit e)) ∧
    (s.dispatcherOut = none ↔ s.status ≠ .running)

/-- A terminal state is frozen: a run from it of any length changes nothing, and the host receives its status and output
(10_state.md R16; 60_exceptions.md R128, R129; D6); a running core reports nothing. -/
def Obligations.TerminalStateIsFrozenAndReported : Prop :=
  ∀ (n : Nat) (s : State), (Ended s → runFor n s = s ∧ s.hostReport = some (s.status, s.out)) ∧
    (s.status = .running → s.hostReport = none)

/-- The run (40_fetch_decode_dispatch.md R80): "`run` repeats `Step()` while `status = Running`". A running state has a next
state, and one more unit of fuel is that step and the rest of the run from it; a run that has ended at some fuel is the
same at every larger one (a terminal state has no step: D6, the spec's own choice); and fuel is only a bound, so a run can
be cut anywhere. -/
def Obligations.RunRepeatsTheStepWhileRunning : Prop :=
  (∀ s : State, runFor 0 s = s) ∧
  (∀ s : State, s.status = .running → ∃ t, step s = .next t ∧ ∀ n, runFor (n + 1) s = runFor n t) ∧
  (∀ (m n : Nat) (s : State), m ≤ n → Ended (runFor m s) → runFor n s = runFor m s) ∧
  ∀ (m n : Nat) (s : State), runFor (m + n) s = runFor n (runFor m s)

/-- THE INVARIANT: memory in canonical form, `halted` only at an `HLT`, and every reported error true of the bytes at `pc`,
the first failing check in the order of 60_exceptions.md R126 (D9). From every state that meets it, not only those a run
reaches, a step gives a state that meets it. -/
def Obligations.StepKeepsTheInvariant : Prop :=
  ∀ s t : State, Inv s → step s = .next t → Inv t

/-- The state after reset meets the invariant. -/
def Obligations.ResetMeetsTheInvariant : Prop := Inv State.reset

/-- What the host is told at the end of a run is true of the state it can inspect (60_exceptions.md R128): from every state
that meets the invariant, a run of any length ends `halted` only at an `HLT`, and in an error only with its cause at `pc`. -/
def Obligations.ReportedStatusIsTrue : Prop :=
  ∀ (n : Nat) (s : State) (status : Status) (out : List Byte), Inv s →
    (runFor n s).hostReport = some (status, out) →
    (status = .halted ∧ (runFor n s).memRead (runFor n s).pc = 0x01) ∨
    ∃ c, status = .error c ∧ CauseTrue (runFor n s) c

/-- "Register values never influence control flow" (40_fetch_decode_dispatch.md R86, derived there): two states that agree
on memory, `pc` and run state, whatever their registers and outputs, agree on them after a run of any length, and emit
equally many values. -/
def Obligations.RegistersNeverInfluenceControl : Prop :=
  ∀ (n : Nat) (s t : State), SameControl s t →
    SameControl (runFor n s) (runFor n t) ∧
    (runFor n s).out.length + t.out.length = (runFor n t).out.length + s.out.length

/-! ### The host's view -/

/-- The suggested binary form of the run state (60_exceptions.md R135), which is the spec's own choice (D10; log 14). -/
def Obligations.ResultPortsEncodeTheStatus : Prop :=
  ∀ s : State, s.resultPorts.errPc = s.pc ∧
    (s.status = .running → s.resultPorts.status = 0 ∧ s.resultPorts.errCause = 0) ∧
    (s.status = .halted → s.resultPorts.status = 1 ∧ s.resultPorts.errCause = 0) ∧
    (∀ opcode pc, s.status = .error (.unknownOpcode opcode pc) →
      s.resultPorts.status = 2 ∧ s.resultPorts.errCause = 1 ∧ s.resultPorts.errOpcode = some opcode) ∧
    (∀ name, s.status = .error (.unsupportedOperation name) →
      s.resultPorts.status = 2 ∧ s.resultPorts.errCause = 2) ∧
    ∀ index pc, s.status = .error (.registerIndexOutOfRange index pc) →
      s.resultPorts.status = 2 ∧ s.resultPorts.errCause = 3 ∧ s.resultPorts.errIndex = some index

/-- The text of the output (42_prn.md R96): a value shows as its decimal numeral (one to three digits with the byte's value
and no leading zero, each digit the character from '0' on) followed by one line break, and the text of a run is the
concatenation over `out`. That the stream is of values and the text the sink's is the spec's own choice (D5; log 4); the
line break is a parameter (U14; log 13). -/
def Obligations.OutputTextIsDecimalLines : Prop :=
  (∀ v : Byte, (decimalDigits v).foldl (fun n d => 10 * n + d) 0 = v.toNat ∧ (∀ d ∈ decimalDigits v, d < 10) ∧
    1 ≤ (decimalDigits v).length ∧ (decimalDigits v).length ≤ 3 ∧
    ((decimalDigits v).head? = some 0 → v = 0 ∧ (decimalDigits v).length = 1)) ∧
  (∀ (lineBreak : List Char) (v : Byte),
    renderOut lineBreak [v] = (decimalDigits v).map (fun d => Char.ofNat (48 + d)) ++ lineBreak) ∧
  ∀ (lineBreak : List Char) (out more : List Byte),
    renderOut lineBreak (out ++ more) = renderOut lineBreak out ++ renderOut lineBreak more
end

