-- ==== Sys2Proof/Laws/Decode.lean ====
section
/-! SUPPORT. The decoder's four answers, and what decoding the head of a byte sequence comes to. -/

namespace Sys2Proof

/-! ### The four known opcodes (40_fetch_decode_dispatch.md R74) -/

@[simp] theorem decoder_ldi : decoder 0x82#8 = some ⟨.ldi, 2, 3, false, none⟩ := by decide
@[simp] theorem decoder_prn : decoder 0x47#8 = some ⟨.prn, 1, 2, false, none⟩ := by decide
@[simp] theorem decoder_hlt : decoder 0x01#8 = some ⟨.hlt, 0, 1, false, none⟩ := by decide
@[simp] theorem decoder_mul : decoder 0xA2#8 = some ⟨.mul, 2, 3, true, some .mul⟩ := by decide

/-- Everything the decoder can answer. -/
theorem decoder_cases (opcode : Byte) :
    (opcode = 0x82#8 ∧ decoder opcode = some ⟨.ldi, 2, 3, false, none⟩) ∨
    (opcode = 0x47#8 ∧ decoder opcode = some ⟨.prn, 1, 2, false, none⟩) ∨
    (opcode = 0x01#8 ∧ decoder opcode = some ⟨.hlt, 0, 1, false, none⟩) ∨
    (opcode = 0xA2#8 ∧ decoder opcode = some ⟨.mul, 2, 3, true, some .mul⟩) ∨
    (opcode ≠ 0x82#8 ∧ opcode ≠ 0x47#8 ∧ opcode ≠ 0x01#8 ∧ opcode ≠ 0xA2#8 ∧ decoder opcode = none) := by
  by_cases h1 : opcode = 0x82#8
  · exact .inl ⟨h1, h1 ▸ decoder_ldi⟩
  by_cases h2 : opcode = 0x47#8
  · exact .inr <| .inl ⟨h2, h2 ▸ decoder_prn⟩
  by_cases h3 : opcode = 0x01#8
  · exact .inr <| .inr <| .inl ⟨h3, h3 ▸ decoder_hlt⟩
  by_cases h4 : opcode = 0xA2#8
  · exact .inr <| .inr <| .inr <| .inl ⟨h4, h4 ▸ decoder_mul⟩
  · exact .inr <| .inr <| .inr <| .inr ⟨h1, h2, h3, h4, by simp only [decoder, opcodeTable, lookupKind, if_neg h1, if_neg h2, if_neg h3, if_neg h4]⟩

/-! ### The head of a byte sequence -/

theorem decode_nil : decode [] = .error .noBytes := rfl

theorem decode_unknown {opcode : Byte} (rest : List Byte) (h : decoder opcode = none) :
    decode (opcode :: rest) = .error (.unknownOpcode opcode) := by
  simp [decode, h]

theorem decode_known {opcode : Byte} {d : Decoded} (rest : List Byte) (h : decoder opcode = some d) :
    decode (opcode :: rest) =
      if rest.length < d.nops.toNat then .error (.truncated opcode)
      else .ok (d.kind.toInstr (rest.getD 0 0) (rest.getD 1 0), rest.drop d.nops.toNat) := by
  simp [decode, h]

end Sys2Proof
end

