-- ==== Sys2Proof/Laws/State.lean ====
section
/-! SUPPORT. What each state update does to each field, so that later proofs unfold no record update. -/

namespace Sys2Proof.Machine

variable (s : State)

/-! ### One register -/

@[simp] theorem State.setReg_pc (i : RegIndex) (v : Byte) : (s.setReg i v).pc = s.pc := rfl
@[simp] theorem State.setReg_mem (i : RegIndex) (v : Byte) : (s.setReg i v).mem = s.mem := rfl
@[simp] theorem State.setReg_status (i : RegIndex) (v : Byte) : (s.setReg i v).status = s.status := rfl
@[simp] theorem State.setReg_out (i : RegIndex) (v : Byte) : (s.setReg i v).out = s.out := rfl
@[simp] theorem State.setReg_regs (i : RegIndex) (v : Byte) : (s.setReg i v).regs = s.regs.set i v := rfl

/-! ### One memory cell -/

@[simp] theorem State.memWrite_regs (a v : Byte) : (s.memWrite a v).regs = s.regs := rfl
@[simp] theorem State.memWrite_pc (a v : Byte) : (s.memWrite a v).pc = s.pc := rfl
@[simp] theorem State.memWrite_mem (a v : Byte) : (s.memWrite a v).mem = s.mem.write a.toNat v := rfl
@[simp] theorem State.memWrite_status (a v : Byte) : (s.memWrite a v).status = s.status := rfl
@[simp] theorem State.memWrite_out (a v : Byte) : (s.memWrite a v).out = s.out := rfl

/-! ### The write port -/

@[simp] theorem State.writePort_none : s.writePort none = s := rfl
@[simp] theorem State.writePort_some (i : RegIndex) (v : Byte) : s.writePort (some (i, v)) = s.setReg i v := rfl
@[simp] theorem State.writePort_pc (p : Option (RegIndex × Byte)) : (s.writePort p).pc = s.pc := by
  rcases p with - | ⟨i, v⟩ <;> rfl
@[simp] theorem State.writePort_mem (p : Option (RegIndex × Byte)) : (s.writePort p).mem = s.mem := by
  rcases p with - | ⟨i, v⟩ <;> rfl
@[simp] theorem State.writePort_status (p : Option (RegIndex × Byte)) : (s.writePort p).status = s.status := by
  rcases p with - | ⟨i, v⟩ <;> rfl
@[simp] theorem State.writePort_out (p : Option (RegIndex × Byte)) : (s.writePort p).out = s.out := by
  rcases p with - | ⟨i, v⟩ <;> rfl

/-! ### The program counter -/

@[simp] theorem State.advancePc_none : s.advancePc none = s := rfl
@[simp] theorem State.advancePc_some_pc (n : BitVec 2) : (s.advancePc (some n)).pc = s.pc + n.setWidth 8 := rfl
@[simp] theorem State.advancePc_regs (n : Option (BitVec 2)) : (s.advancePc n).regs = s.regs := by cases n <;> rfl
@[simp] theorem State.advancePc_mem (n : Option (BitVec 2)) : (s.advancePc n).mem = s.mem := by cases n <;> rfl
@[simp] theorem State.advancePc_status (n : Option (BitVec 2)) : (s.advancePc n).status = s.status := by
  cases n <;> rfl
@[simp] theorem State.advancePc_out (n : Option (BitVec 2)) : (s.advancePc n).out = s.out := by cases n <;> rfl

/-! ### The output port -/

@[simp] theorem State.emit_none : s.emit none = s := rfl
@[simp] theorem State.emit_regs (v : Option Byte) : (s.emit v).regs = s.regs := by cases v <;> rfl
@[simp] theorem State.emit_pc (v : Option Byte) : (s.emit v).pc = s.pc := by cases v <;> rfl
@[simp] theorem State.emit_mem (v : Option Byte) : (s.emit v).mem = s.mem := by cases v <;> rfl
@[simp] theorem State.emit_status (v : Option Byte) : (s.emit v).status = s.status := by cases v <;> rfl
@[simp] theorem State.emit_out (v : Option Byte) : (s.emit v).out = s.out ++ v.toList := by
  cases v <;> simp [State.emit]

/-! ### The run state -/

@[simp] theorem State.raise_regs (c : Cause) : (s.raise c).regs = s.regs := rfl
@[simp] theorem State.raise_pc (c : Cause) : (s.raise c).pc = s.pc := rfl
@[simp] theorem State.raise_mem (c : Cause) : (s.raise c).mem = s.mem := rfl
@[simp] theorem State.raise_status (c : Cause) : (s.raise c).status = .error c := rfl
@[simp] theorem State.raise_out (c : Cause) : (s.raise c).out = s.out := rfl

@[simp] theorem State.halt_regs : s.halt.regs = s.regs := rfl
@[simp] theorem State.halt_pc : s.halt.pc = s.pc := rfl
@[simp] theorem State.halt_mem : s.halt.mem = s.mem := rfl
@[simp] theorem State.halt_status : s.halt.status = .halted := rfl
@[simp] theorem State.halt_out : s.halt.out = s.out := rfl

@[simp] theorem State.react_continue : s.react .continue = s := rfl
@[simp] theorem State.react_halt : s.react .halt = s.halt := rfl
@[simp] theorem State.react_fault (c : Cause) : s.react (.fault c) = s.raise c := rfl
@[simp] theorem State.react_regs (g : ControlSignal) : (s.react g).regs = s.regs := by cases g <;> rfl
@[simp] theorem State.react_pc (g : ControlSignal) : (s.react g).pc = s.pc := by cases g <;> rfl
@[simp] theorem State.react_mem (g : ControlSignal) : (s.react g).mem = s.mem := by cases g <;> rfl
@[simp] theorem State.react_out (g : ControlSignal) : (s.react g).out = s.out := by cases g <;> rfl

/-! ### The end of a step: everything a commit does, field by field -/

@[simp] theorem State.commit_regs (e : Effects) : (s.commit e).regs = (s.writePort e.write).regs := by
  simp [State.commit]
@[simp] theorem State.commit_pc (e : Effects) : (s.commit e).pc = (s.advancePc e.advance).pc := by
  rcases e with ⟨w, o, (- | n), g⟩ <;> simp [State.commit]
@[simp] theorem State.commit_mem (e : Effects) : (s.commit e).mem = s.mem := by simp [State.commit]
@[simp] theorem State.commit_out (e : Effects) : (s.commit e).out = s.out ++ e.emit.toList := by
  simp [State.commit]

@[simp] theorem Effects.fault_write (c : Cause) : (Effects.fault c).write = none := rfl
@[simp] theorem Effects.fault_emit (c : Cause) : (Effects.fault c).emit = none := rfl
@[simp] theorem Effects.fault_advance (c : Cause) : (Effects.fault c).advance = none := rfl
@[simp] theorem Effects.fault_signal (c : Cause) : (Effects.fault c).signal = .fault c := rfl

/-- A handler that faults commits nothing but the exception (60_exceptions.md R127). -/
@[simp] theorem State.commit_fault (c : Cause) : s.commit (Effects.fault c) = s.raise c := rfl

/-! ### Reads -/

@[simp] theorem State.getReg_setReg (i j : RegIndex) (v : Byte) :
    (s.setReg i v).getReg j = if j = i then v else s.getReg j := by
  by_cases h : j = i
  · subst h
    simp [State.getReg, State.setReg]
  · have : (i : Nat) ≠ j := fun e => h (Fin.ext e.symm)
    simp [State.getReg, State.setReg, h, this]

theorem State.getReg_congr {s t : State} (h : s.regs = t.regs) (i : RegIndex) : s.getReg i = t.getReg i := by
  simp [State.getReg, h]

theorem State.memRead_congr {s t : State} (h : s.mem = t.mem) (a : Byte) : s.memRead a = t.memRead a := by
  simp [State.memRead, h]

end Sys2Proof.Machine
end

