-- ==== Sys2Proof/Laws/Exec.lean ====
section
/-! SUPPORT. One spec lemma per shared operation, and the inversion of a step. -/

namespace Sys2Proof.Machine

/-! ### Operands -/

theorem regOperand_of_lt {operand : Byte} (h : operand.toNat < 8) : regOperand operand = some ⟨operand.toNat, h⟩ := by
  simp [regOperand, h]

theorem regOperand_of_ge {operand : Byte} (h : 8 ≤ operand.toNat) : regOperand operand = none := by
  simp [regOperand, Nat.not_lt.mpr h]

theorem withRegister_of_lt {operand : Byte} (pc : Byte) (handler : RegIndex → Effects) (h : operand.toNat < 8) :
    withRegister operand pc handler = handler ⟨operand.toNat, h⟩ := by
  simp [withRegister, regOperand_of_lt h]

theorem withRegister_of_ge {operand : Byte} (pc : Byte) (handler : RegIndex → Effects) (h : 8 ≤ operand.toNat) :
    withRegister operand pc handler = .fault (.registerIndexOutOfRange operand pc) := by
  simp [withRegister, regOperand_of_ge h]

/-! ### Handlers -/

/-- Every instruction answers a next state: its handler's effects, committed. -/
theorem exec_eq_commit (i : Instr) (s : State) : exec i s = .next (s.commit (handlerOf i s)) := by
  cases i <;> rfl

/-- Everything a handler can answer: the effects of the instruction with valid operands, or an index exception. -/
theorem handlerOf_cases (i : Instr) (s : State) :
    (∃ r v h, i = .ldi r v ∧ handlerOf i s =
      { write := some (⟨r.toNat, h⟩, v), emit := none, advance := some 3, signal := .continue }) ∨
    (∃ r h, i = .prn r ∧ handlerOf i s =
      { write := none, emit := some (s.getReg ⟨r.toNat, h⟩), advance := some 2, signal := .continue }) ∨
    (i = .hlt ∧ handlerOf i s = { write := none, emit := none, advance := none, signal := .halt }) ∨
    (∃ a b ha hb, i = .mul a b ∧ handlerOf i s =
      { write := some (⟨a.toNat, ha⟩,
          BitVec.ofNat 8 ((s.getReg ⟨a.toNat, ha⟩).toNat * (s.getReg ⟨b.toNat, hb⟩).toNat % 256)),
        emit := none, advance := some 3, signal := .continue }) ∨
    (∃ r, i.registerOperands.find? (fun r => !validRegister r) = some r ∧
      handlerOf i s = .fault (.registerIndexOutOfRange r s.pc)) := by
  have valid (r : Byte) : validRegister r = decide (r.toNat < 8) := rfl
  cases i with
  | ldi r v =>
    rcases Nat.lt_or_ge r.toNat 8 with h | h
    · exact .inl ⟨r, v, h, rfl, by simp [handlerOf, handleLdi, withRegister_of_lt, h, immOperand]⟩
    · exact .inr <| .inr <| .inr <| .inr ⟨r, by simp [Instr.registerOperands, valid, h],
        by simp [handlerOf, handleLdi, withRegister_of_ge, h]⟩
  | prn r =>
    rcases Nat.lt_or_ge r.toNat 8 with h | h
    · exact .inr <| .inl ⟨r, h, rfl, by simp [handlerOf, handlePrn, withRegister_of_lt, h]⟩
    · exact .inr <| .inr <| .inr <| .inr ⟨r, by simp [Instr.registerOperands, valid, h],
        by simp [handlerOf, handlePrn, withRegister_of_ge, h]⟩
  | hlt => exact .inr <| .inr <| .inl ⟨rfl, rfl⟩
  | mul a b =>
    rcases Nat.lt_or_ge a.toNat 8 with ha | ha
    · rcases Nat.lt_or_ge b.toNat 8 with hb | hb
      · exact .inr <| .inr <| .inr <| .inl ⟨a, b, ha, hb, rfl,
          by simp [handlerOf, handleMul, aluHandler, withRegister_of_lt, ha, hb, alu]⟩
      · refine .inr <| .inr <| .inr <| .inr ⟨b, ?_, ?_⟩
        · simp [Instr.registerOperands, valid, List.find?, ha, Nat.not_lt.mpr hb]
        · simp [handlerOf, handleMul, aluHandler, withRegister_of_lt _ _ ha, withRegister_of_ge _ _ hb]
    · refine .inr <| .inr <| .inr <| .inr ⟨a, ?_, ?_⟩
      · simp [Instr.registerOperands, valid, Nat.not_lt.mpr ha]
      · simp [handlerOf, handleMul, aluHandler, withRegister_of_ge _ _ ha]

/-! ### The fetch -/

/-- Everything the fetch unit and the decoder can come to. -/
theorem fetchInstr_cases (s : State) :
    (s.opcode = 0x82#8 ∧ s.fetchInstr = some (.ldi s.operandA s.operandB)) ∨
    (s.opcode = 0x47#8 ∧ s.fetchInstr = some (.prn s.operandA)) ∨
    (s.opcode = 0x01#8 ∧ s.fetchInstr = some .hlt) ∨
    (s.opcode = 0xA2#8 ∧ s.fetchInstr = some (.mul s.operandA s.operandB)) ∨
    (s.opcode ≠ 0x82#8 ∧ s.opcode ≠ 0x47#8 ∧ s.opcode ≠ 0x01#8 ∧ s.opcode ≠ 0xA2#8 ∧
      decoder s.opcode = none ∧ s.fetchInstr = none) := by
  rcases decoder_cases s.opcode with ⟨h, d⟩ | ⟨h, d⟩ | ⟨h, d⟩ | ⟨h, d⟩ | ⟨h1, h2, h3, h4, d⟩ <;>
    simp [*, State.fetchInstr, Kind.toInstr]

/-! ### The step -/

theorem step_of_unknown {s : State} (running : s.status = .running) (unknown : s.fetchInstr = none) :
    step s = .next (s.raise (.unknownOpcode s.opcode s.pc)) := by
  simp [step, stepWith, running, unknown]

theorem step_of_fetched {s : State} {i : Instr} (running : s.status = .running) (fetched : s.fetchInstr = some i) :
    step s = exec i s := by
  simp [step, stepWith, running, fetched]

theorem step_of_ended {s : State} (ended : s.status ≠ .running) : step s = .fault (.notRunning s.status) := by
  unfold step stepWith
  split <;> simp_all

/-- Everything a step that gives a next state can be. -/
theorem step_next_cases {s t : State} (h : step s = .next t) :
    s.status = .running ∧
      ((s.fetchInstr = none ∧ t = s.raise (.unknownOpcode s.opcode s.pc)) ∨
        ∃ i, s.fetchInstr = some i ∧ t = s.commit (handlerOf i s)) := by
  by_cases running : s.status = .running
  · refine ⟨running, ?_⟩
    cases fetched : s.fetchInstr with
    | none =>
      rw [step_of_unknown running fetched] at h
      exact .inl ⟨rfl, by injection h with h; exact h.symm⟩
    | some i =>
      rw [step_of_fetched running fetched, exec_eq_commit] at h
      exact .inr ⟨i, rfl, by injection h with h; exact h.symm⟩
  · rw [step_of_ended running] at h
    cases h

end Sys2Proof.Machine
end

