-- ==== Sys2Proof/Laws/Memory.lean ====
section
/-! SUPPORT. Memory: a read after a write, and every memory operation keeps the canonical form. -/

namespace Sys2Proof.Machine

/-! ### Reading what was written -/

theorem Memory.read_insert (m : Memory) (a b : Nat) (v : Byte) (fresh : ∀ c ∈ m, c.1 ≠ a) :
    (m.insert a v).read b = if b = a then v else m.read b := by
  induction m with
  | nil => simp [Memory.insert, Memory.read, eq_comm]
  | cons c rest ih =>
    have hc := fresh c (by simp)
    have ih := ih fun d hd => fresh d (by simp [hd])
    unfold Memory.insert
    split <;> simp only [Memory.read, ih] <;> grind

theorem Memory.read_erase (m : Memory) (a b : Nat) :
    (m.erase a).read b = if b = a then Config.resetCell else m.read b := by
  induction m with
  | nil => simp [Memory.erase, Memory.read]
  | cons c rest ih =>
    simp only [Memory.erase] at ih
    simp only [Memory.erase, List.filter_cons]
    split <;> simp only [Memory.read, ih] <;> grind

theorem Memory.mem_erase {m : Memory} {a : Nat} {c : Host.Cell} (h : c ∈ m.erase a) : c ∈ m ∧ c.1 ≠ a := by
  simpa [Memory.erase] using h

/-- A write changes its own cell and no other, in every memory, canonical or not. -/
@[simp] theorem Memory.read_write (m : Memory) (a b : Nat) (v : Byte) :
    (m.write a v).read b = if b = a then v else m.read b := by
  unfold Memory.write
  split
  · next h => simp [Memory.read_erase, h]
  · rw [Memory.read_insert _ _ _ _ fun c hc => (Memory.mem_erase hc).2, Memory.read_erase]
    grind

/-! ### The canonical form -/

theorem Memory.mem_insert {m : Memory} {a : Nat} {v : Byte} {c : Host.Cell} :
    c ∈ m.insert a v ↔ c = (a, v) ∨ c ∈ m := by
  induction m with
  | nil => simp [Memory.insert]
  | cons d rest ih =>
    unfold Memory.insert
    split
    · simp only [List.mem_cons]
    · simp only [List.mem_cons, ih]
      tauto

theorem Memory.insert_sorted (m : Memory) (a : Nat) (v : Byte) (sorted : m.Pairwise fun c d => c.1 < d.1)
    (fresh : ∀ c ∈ m, c.1 ≠ a) : (m.insert a v).Pairwise fun c d => c.1 < d.1 := by
  induction m with
  | nil => simp [Memory.insert]
  | cons c rest ih =>
    obtain ⟨above, tail⟩ := List.pairwise_cons.mp sorted
    have hc := fresh c (by simp)
    unfold Memory.insert
    split
    · next lt =>
      refine List.pairwise_cons.mpr ⟨fun d hd => ?_, sorted⟩
      rcases List.mem_cons.mp hd with rfl | hd
      · exact lt
      · exact lt_trans lt (above d hd)
    · refine List.pairwise_cons.mpr ⟨fun d hd => ?_, ih tail fun d hd => fresh d (by simp [hd])⟩
      rcases Memory.mem_insert.mp hd with rfl | hd
      · dsimp only at *
        omega
      · exact above d hd

theorem Memory.erase_wf {m : Memory} (a : Nat) (h : m.wf) : (m.erase a).wf :=
  ⟨h.1.filter _, fun c hc => h.2 c (Memory.mem_erase hc).1⟩

/-- A write inside the 256 cells keeps the canonical form. -/
theorem Memory.write_wf {m : Memory} {a : Nat} (v : Byte) (h : m.wf) (inside : a < Config.memSize) :
    (m.write a v).wf := by
  have he := Memory.erase_wf a h
  unfold Memory.write
  split
  · exact he
  · next hv =>
    refine ⟨Memory.insert_sorted _ _ _ he.1 fun c hc => (Memory.mem_erase hc).2, fun c hc => ?_⟩
    rcases Memory.mem_insert.mp hc with rfl | hc
    · exact ⟨inside, hv⟩
    · exact he.2 c hc

theorem State.memWrite_wf {s : State} (a v : Byte) (h : s.mem.wf) : (s.memWrite a v).mem.wf :=
  Memory.write_wf v h a.isLt

theorem Memory.load_wf {m : Memory} (a : Nat) (image : List Byte) (h : m.wf)
    (inside : a + image.length ≤ Config.memSize) : (m.load a image).wf := by
  induction image generalizing m a with
  | nil => exact h
  | cons b rest ih =>
    simp only [List.length_cons] at inside
    exact ih (a + 1) (Memory.write_wf b h (by omega)) (by omega)

theorem State.storeBytes_wf {s : State} (a : Byte) (bytes : List Byte) (h : s.mem.wf) :
    (s.storeBytes a bytes).mem.wf := by
  induction bytes generalizing s a with
  | nil => exact h
  | cons b rest ih => exact ih (a + 1) (State.memWrite_wf a b h)

theorem State.placeFetch_wf {s : State} (bytes : List Byte) (h : s.mem.wf) : (s.placeFetch bytes).mem.wf :=
  State.storeBytes_wf s.pc bytes h

theorem State.reset_wf : State.reset.mem.wf := by decide

end Sys2Proof.Machine
end

