-- ==== Sys2Proof/Laws/PerInstr.lean ====
section
/-! SUPPORT. Facts stated for every instruction, one lemma per constructor. -/

namespace Sys2Proof.Laws.EncodedForm

/-- The encoding begins with an opcode byte the decoder knows by the instruction's kind, and it is `width` bytes long:
one more than the operand count in the opcode's two high bits (30_encoding.md R51, R59; 70_reset_and_hazards.md R144). -/
def Statement (i : Instr) : Prop :=
  ∃ opcode operands d, encode i = opcode :: operands ∧ decoder opcode = some d ∧ d.kind = i.kind ∧
    operands.length = (operandCount opcode).toNat ∧ (encode i).length = d.width.toNat

theorem ldi (regIndex immediate : Byte) : Statement (.ldi regIndex immediate) :=
  ⟨_, _, _, rfl, decoder_ldi, rfl, rfl, rfl⟩

theorem prn (regIndex : Byte) : Statement (.prn regIndex) :=
  ⟨_, _, _, rfl, decoder_prn, rfl, rfl, rfl⟩

theorem hlt : Statement .hlt :=
  ⟨_, _, _, rfl, decoder_hlt, rfl, rfl, rfl⟩

theorem mul (regA regB : Byte) : Statement (.mul regA regB) :=
  ⟨_, _, _, rfl, decoder_mul, rfl, rfl, rfl⟩

end Sys2Proof.Laws.EncodedForm
end

