-- ==== Sys2Proof/Machine/Flags.lean ====
section
/-! DEFINITION. The hardware has no flags register, no condition codes and no predicates, and no instruction sets a flag
as a side effect (10_state.md R17; 44_alu_mul.md R109, R111): the file states no flag computation because the spec gives
none. -/
end

