-- ==== Sys2Proof/Tests/Slice0.lean ====
section
/-! SUPPORT. Tests of one step each, with expected results from the spec's own vectors (95_test_vectors.md) or worked by hand
from its rules, and a witness for every statement that has hypotheses. -/

namespace Sys2Proof.Tests

open Sys2Proof Sys2Proof.Machine Sys2Proof.Safety

/-! ### Helpers -/

/-- The next state of an outcome, if it is one. -/
def nextOf : Host.Outcome State Fault Refusal → Option State
  | .next s => some s
  | .fault _ => none
  | .refused _ => none

/-- The reset state with `pc` at an address and bytes from there on. -/
def codeAt (pc : Byte) (bytes : List Byte) : State := State.placeFetch { State.reset with pc := pc } bytes

/-- The same with some registers written. -/
def codeWith (pc : Byte) (bytes : List Byte) (regs : List (RegIndex × Byte)) : State :=
  regs.foldl (fun s r => s.setReg r.1 r.2) (codeAt pc bytes)

/-- A few observed things of the next state: registers, `pc`, output. -/
def seen (o : Host.Outcome State Fault Refusal) : Option (List Byte × Byte × List Byte) :=
  (nextOf o).map fun s => (s.regs.toList, s.pc, s.out)

/-- The run state of the next state. -/
def statusOf (o : Host.Outcome State Fault Refusal) : Option Status := (nextOf o).map State.status

/-! ### WellFormed refuses an ill-formed term of each check (30_encoding.md R54) -/

theorem test_wellFormed_accepts_7 :
    [Instr.ldi 7 255, .prn 7, .hlt, .mul 7 0, .mul 0 7].all Instr.wellFormed = true := by decide
theorem test_wellFormed_refuses_ldi_8 : (Instr.ldi 8 0).wellFormed = false := by decide
theorem test_wellFormed_refuses_prn_8 : (Instr.prn 8).wellFormed = false := by decide
theorem test_wellFormed_refuses_mul_first_8 : (Instr.mul 8 0).wellFormed = false := by decide
theorem test_wellFormed_refuses_mul_second_255 : (Instr.mul 0 255).wellFormed = false := by decide

/-! ### Decoding, from words written out bit by bit (30_encoding.md R56) -/

theorem test_decode_ldi : decode [0b10000010, 0b00000011, 0b00101010] = .ok (.ldi 3 42, []) := by decide
theorem test_decode_prn : decode [0b01000111, 0b00000101, 0b11111111] = .ok (.prn 5, [0xFF]) := by decide
theorem test_decode_hlt : decode [0b00000001] = .ok (.hlt, []) := by decide
theorem test_decode_mul : decode [0b10100010, 0b00000111, 0b00000110] = .ok (.mul 7 6, []) := by decide
theorem test_decode_keeps_a_bad_index : decode [0x82, 0x82, 0x82] = .ok (.ldi 0x82 0x82, []) := by decide

/-- V-DEC: 0x00, 0xA0, the one-bit neighbours of the four opcodes and 0xC0, 0xFF are unknown. -/
theorem test_decoder_unknown :
    ([0x00, 0xA0, 0x02, 0x46, 0x48, 0x81, 0x83, 0xA1, 0xA3, 0x03, 0x05, 0x09, 0x11, 0x21, 0x41, 0x45, 0x43, 0x4F, 0x57,
      0x67, 0x07, 0xC7, 0x80, 0x86, 0x8A, 0x92, 0xC2, 0xA6, 0xAA, 0xB2, 0xE2, 0x22, 0xC0, 0xFF] : List Byte).all
      (fun b => (decoder b).isNone) = true := by decide
theorem test_decode_unknown : decode [0xFF] = .error (.unknownOpcode 0xFF) := by decide
theorem test_decode_truncated : decode [0x82, 0x00] = .error (.truncated 0x82) := by decide
theorem test_decode_nothing : decode [] = .error .noBytes := by decide

theorem test_tableWord_ldi : decodeTableWord 24 0x080082 = some (.ldi 0 8) := by decide
theorem test_tableWord_prn_drops_high_bits : decodeTableWord 16 0xFF0547 = some (.prn 5) := by decide
theorem test_tableWord_hlt : decodeTableWord 8 0x01 = some .hlt := by decide
theorem test_tableWord_unknown : decodeTableWord 8 0x00 = none := by decide

/-! ### The fetch (V-FET): the operand addresses wrap -/

theorem test_fetch_wraps_at_255 :
    (codeAt 255 [0x82, 0x02, 0x07]).fetchInstr = some (.ldi 2 7) ∧
      (codeAt 255 [0x82, 0x02, 0x07]).memRead 0 = 2 := by decide

/-! ### Steps (V-LDI, V-PRN, V-HLT, V-MUL, V-PC, V-EXC) -/

theorem test_ldi_step : seen (step (codeAt 0 [0x82, 0x07, 0xFF])) = some ([0, 0, 0, 0, 0, 0, 0, 255], 3, []) := by
  decide
theorem test_ldi_pc_wraps : seen (step (codeAt 254 [0x82, 0x02, 0x82])) = some ([0, 0, 130, 0, 0, 0, 0, 0], 1, []) := by
  decide
theorem test_prn_step :
    seen (step (codeWith 3 [0x47, 0x00, 0xFF] [(0, 8)])) = some ([8, 0, 0, 0, 0, 0, 0, 0], 5, [8]) := by decide
theorem test_prn_bad_index_emits_nothing :
    step (codeAt 0 [0x47, 0x08]) = .next { codeAt 0 [0x47, 0x08] with status := .error (.registerIndexOutOfRange 8 0) } := by
  rfl
theorem test_hlt_keeps_pc :
    step (codeAt 255 [0x01, 0xFF, 0xFF]) = .next { codeAt 255 [0x01, 0xFF, 0xFF] with status := .halted } := by rfl
theorem test_mul_destination_is_first :
    seen (step (codeWith 0 [0xA2, 0x01, 0x00] [(0, 9), (1, 10)])) = some ([9, 90, 0, 0, 0, 0, 0, 0], 3, []) := by decide
theorem test_mul_squares_and_truncates :
    seen (step (codeWith 0 [0xA2, 0x02, 0x02] [(2, 20)])) = some ([0, 0, 144, 0, 0, 0, 0, 0], 3, []) := by decide
theorem test_mul_second_index :
    statusOf (step (codeWith 3 [0xA2, 0x00, 0x09] [(0, 3)])) = some (.error (.registerIndexOutOfRange 9 3)) := by decide
theorem test_unknown_wins_over_bad_operands :
    statusOf (step (codeAt 0 [0xC1, 0x09, 0x09])) = some (.error (.unknownOpcode 0xC1 0)) := by decide
theorem test_no_nop_after_reset : statusOf (step State.reset) = some (.error (.unknownOpcode 0x00 0)) := by decide
theorem test_no_step_after_halt : step { State.reset with status := .halted } = .fault (.notRunning .halted) := by rfl

/-! ### A table word runs as the first instruction after reset -/

theorem test_placed_mul_runs_from_reset :
    step (State.reset.withFetchWord 24 0x0700A2) = exec (.mul 0 7) (State.reset.withFetchWord 24 0x0700A2) := by rfl
theorem test_placed_hlt_runs_from_reset :
    statusOf (step (State.reset.withFetchWord 8 0x01)) = some .halted := by decide

/-! ### The ALU (V-ALU) -/

theorem test_alu_mul : alu .mul 200 200 = some 64 ∧ alu .mul 255 255 = some 1 ∧ alu .mul 17 241 = some 1 := by decide
theorem test_alu_add : alu .add 200 100 = some 44 ∧ alu .add 255 255 = some 254 ∧ alu .add 255 1 = some 0 := by decide
theorem test_alu_unsupported : alu (.other "SUB") 1 2 = none := by rfl

/-! ### Load, text and ports -/

theorem test_launch_places_the_bytes :
    (nextOf (launch [0x82, 0x00, 0x08])).map (fun s => (s.mem, s.pc)) = some ([(0, 0x82), (2, 0x08)], 0) := by decide
theorem test_text_of_ldi : instrText (.ldi 0 8) = "LDI R0,8".toList := by decide
theorem test_text_of_mul : instrText (.mul 0 1) = "MUL R0,R1".toList := by decide
theorem test_text_of_a_byte_that_names_no_register : instrText (.prn 255) = "PRN R255".toList := by decide
theorem test_render_out :
    renderOut ['|'] [8, 90, 64, 0, 255] = ['8', '|', '9', '0', '|', '6', '4', '|', '0', '|', '2', '5', '5', '|'] := by decide
theorem test_resultPorts_unknown : { State.reset with status := .error (.unknownOpcode 0xFF 0) }.resultPorts =
    { status := 2, errCause := 1, errOpcode := some 0xFF, errIndex := none, errPc := 0 } := by decide

/-! ### Witnesses: for each statement with hypotheses, a state and operands that meet them all, clause by clause -/

theorem test_witness_DecoderOutputsPerOpcode :
    decoder 0xA2 = some { kind := .mul, nops := 2, width := 3, usesAlu := true, aluOp := some .mul } := by decide
theorem test_witness_DecodeAndEncodeAreInverse : decode [0xA2, 0xFF, 0x08, 0x01] = .ok (.mul 0xFF 8, [0x01]) := by decide
theorem test_witness_DecodeRefusesByName :
    decode [0xC0] = .error (.unknownOpcode 0xC0) ∧ decode [0x47] = .error (.truncated 0x47) := by decide
theorem test_witness_StepRunsTheDecodedInstruction :
    (codeAt 254 [0xA2, 0x07, 0x08]).status = .running ∧
      decode [(codeAt 254 [0xA2, 0x07, 0x08]).memRead 254, (codeAt 254 [0xA2, 0x07, 0x08]).memRead 255,
        (codeAt 254 [0xA2, 0x07, 0x08]).memRead 0] = .ok (.mul 7 8, []) := by decide
theorem test_witness_UnknownOpcodeRaisesAndDoesNothingElse :
    State.reset.status = .running ∧ decoder (State.reset.memRead State.reset.pc) = none := by decide
theorem test_witness_UnusedOperandBytesHaveNoEffect_hlt :
    (codeAt 0 [0x01]).status = .running ∧ (codeAt 0 [0x01]).memRead 0 = 0x01 ∧
      Memory.read [(0, 0x01), (1, 0xFF)] 0 = 0x01 := by decide
theorem test_witness_UnusedOperandBytesHaveNoEffect_prn :
    (codeAt 255 [0x47, 0x08]).memRead 255 = 0x47 ∧ Memory.read [(0, 0x08), (1, 0x09), (255, 0x47)] 255 = 0x47 ∧
      Memory.read [(0, 0x08), (1, 0x09), (255, 0x47)] 0 = (codeAt 255 [0x47, 0x08]).memRead (255 + 1) := by decide
theorem test_witness_StepReadsOnlyTheInstructionBytes_unknown :
    Memory.read [(1, 0x55)] 0 = State.reset.memRead 0 ∧ decoder (State.reset.memRead 0) = none := by decide
theorem test_witness_StepReadsOnlyTheInstructionBytes_known :
    Memory.read [(0, 0x82), (1, 7), (2, 9), (3, 1)] 0 = (codeAt 0 [0x82, 7, 9]).memRead 0 ∧
      Memory.read [(0, 0x82), (1, 7), (2, 9), (3, 1)] 1 = (codeAt 0 [0x82, 7, 9]).memRead 1 ∧
      Memory.read [(0, 0x82), (1, 7), (2, 9), (3, 1)] 2 = (codeAt 0 [0x82, 7, 9]).memRead 2 := by decide
theorem test_witness_StepExistsExactlyWhileRunning :
    State.reset.status = .running ∧ (State.reset.halt).status ≠ .running := by decide
theorem test_witness_StatusFollowsTheControlSignal :
    (handlerOf (.ldi 7 1) State.reset).signal = .continue ∧ (handlerOf .hlt State.reset).signal = .halt ∧
      (handlerOf (.ldi 8 1) State.reset).signal = .fault (.registerIndexOutOfRange 8 0) := by decide
theorem test_witness_HandlersAnswerTheirSignals :
    (Instr.mul 7 7 ≠ .hlt ∧ (Instr.mul 7 7).wellFormed = true) ∧ (Instr.mul 7 8).wellFormed = false := by decide
theorem test_witness_register_7_is_valid_and_8_is_not :
    (7 : Byte).toNat < 8 ∧ 8 ≤ (8 : Byte).toNat ∧ 8 ≤ (255 : Byte).toNat := by decide
theorem test_witness_HltHaltsAndKeepsEverythingElse :
    ((codeAt 255 [0x01]).status = .running ∧ (codeAt 255 [0x01]).memRead 255 = 0x01) ∧
      State.reset.halt.status = .halted := by decide
theorem test_witness_LdiWritesTheImmediate :
    exec (.ldi 7 255) State.reset = .next { State.reset with regs := #v[0, 0, 0, 0, 0, 0, 0, 255], pc := 3 } := by rfl
theorem test_witness_PrnEmitsTheRegister : exec (.prn 7) State.reset = .next { State.reset with out := [0], pc := 2 } := by
  rfl
theorem test_witness_MulWritesTheProduct :
    exec (.mul 7 0) State.reset = .next { State.reset with pc := 3 } := by rfl
theorem test_witness_LdiAndPrnRaiseOnABadIndex :
    statusOf (exec (.ldi 8 0) State.reset) = some (.error (.registerIndexOutOfRange 8 0)) ∧
      statusOf (exec (.prn 255) State.reset) = some (.error (.registerIndexOutOfRange 255 0)) := by decide
theorem test_witness_MulRaisesOnTheFirstBadIndex :
    statusOf (exec (.mul 9 10) State.reset) = some (.error (.registerIndexOutOfRange 9 0)) ∧
      statusOf (exec (.mul 7 8) State.reset) = some (.error (.registerIndexOutOfRange 8 0)) := by decide
theorem test_witness_IndexExceptionExactlyWhenIllFormed :
    State.reset.status = .running ∧ (Instr.mul 8 9).registerOperands.find? (fun r => !validRegister r) = some 8 := by
  decide
theorem test_witness_FrameOfTheRegisterWriters :
    exec (.mul 8 0) State.reset = .next (State.reset.raise (.registerIndexOutOfRange 8 0)) ∧
      (Instr.mul 8 0).wellFormed = false ∧ (Instr.ldi 7 1).wellFormed = true ∧
      (Instr.ldi 7 1).destination ≠ some (BitVec.ofNat 8 (6 : RegIndex)) := ⟨rfl, by decide⟩
theorem test_witness_FrameOfPrn :
    exec (.prn 8) State.reset = .next (State.reset.raise (.registerIndexOutOfRange 8 0)) := by rfl
theorem test_witness_FrameOfHlt : exec .hlt State.reset = .next State.reset.halt := by rfl
theorem test_witness_UnsupportedOperation :
    State.reset.commit (aluHandler (.other "SUB") 7 7 State.reset) = State.reset.raise (.unsupportedOperation "SUB") := by
  rfl
theorem test_witness_CanonicalMemoryIsItsContents : Memory.wf [(0, 0x82), (255, 0x01)] := by decide
theorem test_witness_LaunchLoadsTheImageOrRefuses :
    (List.replicate 256 (0x47 : Byte)).length ≤ 256 ∧ 256 < (List.replicate 257 (0 : Byte)).length := by
  rw [List.length_replicate, List.length_replicate]
  decide
theorem test_witness_PlacedWordIsTheNextInstruction :
    decodeTableWord 24 0x0600A2 = some (.mul 0 6) ∧ State.reset.status = .running := by decide
theorem test_witness_step_next_running :
    step (codeAt 253 [0x82, 0x07, 0x01]) =
      .next { codeAt 253 [0x82, 0x07, 0x01] with regs := #v[0, 0, 0, 0, 0, 0, 0, 1], pc := 0 } := by rfl
theorem test_witness_step_next_halted : step (codeAt 5 [0x01]) = .next (codeAt 5 [0x01]).halt := by rfl
theorem test_witness_step_next_error :
    step State.reset = .next (State.reset.raise (.unknownOpcode 0 0)) := by rfl
theorem test_witness_ChecksAreMadeInOrder :
    (codeAt 0 [0xA2, 0x07, 0x08]).fetchInstr = some (.mul 7 8) ∧
      step (codeAt 0 [0xA2, 0x07, 0x08]) = .next ((codeAt 0 [0xA2, 0x07, 0x08]).raise (.registerIndexOutOfRange 8 0)) :=
  ⟨by decide, rfl⟩
theorem test_witness_OutputGrowsByThePortAlone :
    (codeWith 0 [0x47, 0x07] [(7, 200)]).outPort = some 200 ∧ (codeAt 0 [0x47, 0x08]).outPort = none := by decide
theorem test_witness_StepCommitsTheDispatcherOutputs :
    State.reset.dispatcherOut = some (.fault (.unknownOpcode 0 0)) ∧ State.reset.halt.dispatcherOut = none := by decide
theorem test_witness_TerminalStateIsFrozenAndReported :
    State.reset.halt.hostReport = some (.halted, []) ∧ State.reset.hostReport = none := by decide
theorem test_witness_RunRepeatsTheStepWhileRunning :
    State.reset.status = .running ∧ Ended (runFor 1 State.reset) ∧ ¬ Ended (runFor 0 State.reset) := by
  unfold Ended
  decide
theorem test_witness_StepKeepsTheInvariant :
    Inv State.reset ∧ step State.reset = .next (State.reset.raise (.unknownOpcode 0 0)) :=
  ⟨⟨by decide, trivial⟩, rfl⟩
theorem test_witness_StepKeepsTheInvariant_halted :
    Inv (codeAt 5 [0x01]) ∧ Inv (codeAt 5 [0x01]).halt :=
  ⟨⟨by decide, trivial⟩, ⟨by decide, show (codeAt 5 [0x01]).halt.opcode = 0x01#8 by decide⟩⟩
theorem test_witness_ReportedStatusIsTrue :
    Inv State.reset ∧ (runFor 1 State.reset).hostReport = some (.error (.unknownOpcode 0 0), []) :=
  ⟨⟨by decide, trivial⟩, rfl⟩
theorem test_witness_RegistersNeverInfluenceControl :
    SameControl (codeWith 0 [0x47, 0x00] [(0, 1)]) (codeWith 0 [0x47, 0x00] [(0, 2)]) ∧
      codeWith 0 [0x47, 0x00] [(0, 1)] ≠ codeWith 0 [0x47, 0x00] [(0, 2)] := ⟨⟨rfl, rfl, rfl⟩, by decide⟩
theorem test_witness_ResultPortsEncodeTheStatus :
    (State.reset.raise (.registerIndexOutOfRange 255 0)).resultPorts.errIndex = some 255 ∧
      (State.reset.raise (.unsupportedOperation "SUB")).resultPorts.errCause = 2 := by decide
theorem test_witness_OutputTextIsDecimalLines :
    (decimalDigits 0).head? = some 0 ∧ decimalDigits 99 = [9, 9] ∧ decimalDigits 100 = [1, 0, 0] := by decide

end Sys2Proof.Tests
end

section
/-! The register file (10_state.md R11): what a read port returns after reset and after a write. -/

namespace Sys2Proof.Machine

/-- No register is special at reset (10_state.md R11, R12, R20). -/
@[simp] theorem State.getReg_reset (i : RegIndex) : State.reset.getReg i = 0 := by
  simp [State.getReg, State.reset]

/-- Settles O28: reset is `State.getReg_reset`, and a write is the read-after-write law `State.getReg_setReg`. -/
theorem registerHoldsTheLastValueWritten : Obligations.RegisterHoldsTheLastValueWritten :=
  ⟨State.getReg_reset, State.getReg_setReg⟩

end Sys2Proof.Machine
end

section
/-! Memory (20_memory.md R31, R32): what a read returns after reset and after a write, by address. -/

namespace Sys2Proof.Machine

/-- Reset clears every cell (20_memory.md R30, R31). -/
@[simp] theorem State.memRead_reset (a : Byte) : State.reset.memRead a = 0 := rfl

/-- `Memory.read_write` at byte addresses: two of them name one cell exactly when they are equal (R33). -/
@[simp] theorem State.memRead_memWrite (s : State) (a b v : Byte) :
    (s.memWrite a v).memRead b = if b = a then v else s.memRead b := by
  simp only [State.memRead, State.memWrite_mem, Memory.read_write, BitVec.toNat_inj]

/-- Settles O29: reset is `State.memRead_reset`, a write is the read-after-write law `State.memRead_memWrite`, and by its
definition a write replaces the field `mem` alone. -/
theorem memoryHoldsTheLastByteWritten : Obligations.MemoryHoldsTheLastByteWritten :=
  ⟨State.memRead_reset, fun s a b v => ⟨State.memRead_memWrite s a b v, s.mem.write a.toNat v, rfl⟩⟩

end Sys2Proof.Machine
end

section
/-! Unused operand bytes (30_encoding.md R58): a step depends on memory through the fetched instruction alone. -/

namespace Sys2Proof.Machine

/-! ### What an instruction without a second operand byte is fetched as -/

theorem fetchInstr_of_hlt {s : State} (opcode : s.memRead s.pc = 0x01#8) : s.fetchInstr = some .hlt := by
  simp [State.fetchInstr, State.opcode, opcode, Kind.toInstr]

theorem fetchInstr_of_prn {s : State} (opcode : s.memRead s.pc = 0x47#8) :
    s.fetchInstr = some (.prn (s.memRead (s.pc + 1))) := by
  simp [State.fetchInstr, State.opcode, State.operandA, opcode, Kind.toInstr]

/-! ### After the fetch, memory is neither read nor written -/

theorem handlerOf_replaceMem (i : Instr) (s : State) (m : Memory) : handlerOf i { s with mem := m } = handlerOf i s := by
  cases i <;> rfl

theorem State.writePort_replaceMem (s : State) (m : Memory) (port : Option (RegIndex × Byte)) :
    State.writePort { s with mem := m } port = { s.writePort port with mem := m } := by
  cases port <;> rfl

theorem State.emit_replaceMem (s : State) (m : Memory) (port : Option Byte) :
    State.emit { s with mem := m } port = { s.emit port with mem := m } := by
  cases port <;> rfl

theorem State.advancePc_replaceMem (s : State) (m : Memory) (amount : Option (BitVec 2)) :
    State.advancePc { s with mem := m } amount = { s.advancePc amount with mem := m } := by
  cases amount <;> rfl

theorem State.react_replaceMem (s : State) (m : Memory) (signal : ControlSignal) :
    State.react { s with mem := m } signal = { s.react signal with mem := m } := by
  cases signal <;> rfl

theorem State.commit_replaceMem (s : State) (m : Memory) (e : Effects) :
    State.commit { s with mem := m } e = { s.commit e with mem := m } := by
  simp only [State.commit, State.writePort_replaceMem, State.emit_replaceMem, State.advancePc_replaceMem,
    State.react_replaceMem]

theorem step_replaceMem_of_fetched {s : State} {m : Memory} {i : Instr} (running : s.status = .running)
    (fetched : s.fetchInstr = some i) (fetched' : State.fetchInstr { s with mem := m } = some i) :
    ∃ t, step s = .next t ∧ step { s with mem := m } = .next { t with mem := m } := by
  refine ⟨s.commit (handlerOf i s), ?_, ?_⟩
  · rw [step_of_fetched running fetched, exec_eq_commit]
  · have running' : State.status { s with mem := m } = .running := running
    rw [step_of_fetched running' fetched', exec_eq_commit, handlerOf_replaceMem, State.commit_replaceMem]

/-- Settles O7: both memories fetch the same instruction, `HLT` by its opcode and `PRN` by its opcode and `operand_a`, and
nothing after the fetch looks at memory. -/
theorem unusedOperandBytesHaveNoEffect : Obligations.UnusedOperandBytesHaveNoEffect := by
  refine ⟨fun a b => ⟨decode_known _ decoder_hlt, decode_known _ decoder_prn⟩, fun s m running sameBytes => ?_⟩
  rcases sameBytes with ⟨opcode, opcode'⟩ | ⟨opcode, opcode', operandA⟩
  · exact step_replaceMem_of_fetched running (fetchInstr_of_hlt opcode) (fetchInstr_of_hlt opcode')
  · have fetched' : State.fetchInstr { s with mem := m } = some (.prn (m.read (s.pc + 1).toNat)) :=
      fetchInstr_of_prn opcode'
    exact step_replaceMem_of_fetched running (fetchInstr_of_prn opcode) (operandA ▸ fetched')

end Sys2Proof.Machine
end

section
/-! The immediate of `LDI` (30_encoding.md R55), and an operand byte made of a register's index (R54). -/

namespace Sys2Proof.Machine

@[simp] theorem regOperand_ofNat (r : RegIndex) : regOperand (BitVec.ofNat 8 r) = some r := by
  have index : (BitVec.ofNat 8 r).toNat = r := by rw [BitVec.toNat_ofNat, Nat.mod_eq_of_lt (by omega)]
  simp [regOperand, index]

@[simp] theorem withRegister_ofNat (r : RegIndex) (pc : Byte) (handler : RegIndex → Effects) :
    withRegister (BitVec.ofNat 8 r) pc handler = handler r := by
  simp [withRegister]

theorem exec_ldi_ofNat (r : RegIndex) (v : Byte) (s : State) :
    exec (.ldi (BitVec.ofNat 8 r) v) s = .next ((s.setReg r v).advancePc (some 3)) := by
  rw [exec_eq_commit, handlerOf, handleLdi, withRegister_ofNat]
  rfl

theorem immediate_eq_some_iff (i : Instr) (v : Byte) : i.immediate = some v ↔ ∃ r, encode i = [0x82#8, r, v] := by
  cases i <;> simp [Instr.immediate, encode]

/-- Settles O13: `LDI` writes the immediate to its register, the advance of `pc` leaves the registers alone, and a byte is
below 256. -/
theorem ldiImmediateIsReadBackWhole : Obligations.LdiImmediateIsReadBackWhole := by
  refine ⟨immediate_eq_some_iff, fun r v s => ⟨_, exec_ldi_ofNat r v s, ?_⟩⟩
  have readBack : ((s.setReg r v).advancePc (some 3)).getReg r = v := by
    rw [State.getReg_congr (State.advancePc_regs _ _), State.getReg_setReg, if_pos rfl]
  exact ⟨by rw [readBack, Nat.mod_eq_of_lt v.isLt], readBack⟩

end Sys2Proof.Machine
end

section
/-! The run (40_fetch_decode_dispatch.md R80): one unit of fuel is one step while the core is running, and a run can be
cut anywhere. -/

namespace Sys2Proof.Machine

/-- The running core has a next state, whatever it fetches (R70, R81). -/
theorem step_of_running {s : State} (running : s.status = .running) : ∃ t, step s = .next t := by
  cases fetched : s.fetchInstr with
  | none => exact ⟨_, step_of_unknown running fetched⟩
  | some i => exact ⟨_, (step_of_fetched running fetched).trans (exec_eq_commit i s)⟩

/-! ### One equation per case of the run -/

@[simp] theorem runFor_zero (s : State) : runFor 0 s = s := rfl

theorem runFor_succ_of_next {s t : State} (next : step s = .next t) (n : Nat) : runFor (n + 1) s = runFor n t := by
  rw [runFor, next]

theorem runFor_of_ended {s : State} (ended : s.status ≠ .running) (n : Nat) : runFor n s = s := by
  cases n with
  | zero => rfl
  | succ n => rw [runFor, step_of_ended ended]

/-! ### Cutting a run -/

theorem runFor_add (m n : Nat) (s : State) : runFor (m + n) s = runFor n (runFor m s) := by
  induction m generalizing s with
  | zero => rw [Nat.zero_add, runFor_zero]
  | succ m ih =>
    by_cases running : s.status = .running
    · obtain ⟨t, next⟩ := step_of_running running
      rw [Nat.succ_add, runFor_succ_of_next next, runFor_succ_of_next next, ih]
    · simp only [runFor_of_ended running]

theorem runFor_eq_of_ended_of_le {m n : Nat} {s : State} (le : m ≤ n) (ended : (runFor m s).status ≠ .running) :
    runFor n s = runFor m s := by
  obtain ⟨k, rfl⟩ := Nat.exists_eq_add_of_le le
  rw [runFor_add, runFor_of_ended ended]

/-- Settles O42: the clauses are `runFor_zero`, `step_of_running` with `runFor_succ_of_next`, `runFor_eq_of_ended_of_le`
and `runFor_add`, the last by induction on the steps of the first part. -/
theorem runRepeatsTheStepWhileRunning : Obligations.RunRepeatsTheStepWhileRunning := by
  refine ⟨runFor_zero, fun s running => ?_, fun _ _ _ => runFor_eq_of_ended_of_le, runFor_add⟩
  obtain ⟨t, next⟩ := step_of_running running
  exact ⟨t, next, runFor_succ_of_next next⟩

end Sys2Proof.Machine
end

section
/-! Unknown opcodes (40_fetch_decode_dispatch.md R72): which opcodes the decoder knows, and the step at any other. -/

namespace Sys2Proof.Machine

theorem decoder_isSome_iff (opcode : Byte) :
    (decoder opcode).isSome = true ↔ opcode = 0x82 ∨ opcode = 0x47 ∨ opcode = 0x01 ∨ opcode = 0xA2 := by
  rcases decoder_cases opcode with ⟨rfl, known⟩ | ⟨rfl, known⟩ | ⟨rfl, known⟩ | ⟨rfl, known⟩ | ⟨h1, h2, h3, h4, unknown⟩
  case inr.inr.inr.inr => simp [unknown, h1, h2, h3, h4]
  all_goals simp [known]

/-- No operand is read and no instruction is made of an unknown opcode (R72). -/
theorem fetchInstr_of_unknown {s : State} (unknown : decoder s.opcode = none) : s.fetchInstr = none := by
  simp [State.fetchInstr, unknown]

/-- Settles O6: the known opcodes are `decoder_isSome_iff`; at any other nothing is fetched, so the step is the raise alone. -/
theorem unknownOpcodeRaisesAndDoesNothingElse : Obligations.UnknownOpcodeRaisesAndDoesNothingElse :=
  ⟨decoder_isSome_iff, fun _ running unknown => step_of_unknown running (fetchInstr_of_unknown unknown)⟩

end Sys2Proof.Machine
end

section
/-! The run state after a handler (40_fetch_decode_dispatch.md R78): the three ports leave it to the control signal. -/

namespace Sys2Proof.Machine

@[simp] theorem State.commit_status (s : State) (e : Effects) : (s.commit e).status = (s.react e.signal).status := by
  rcases e with ⟨write, emit, advance, signal⟩
  cases signal <;> simp [State.commit]

/-- Settles O10: the status after a commit is the reaction to the signal alone (`State.commit_status`), and every
instruction commits its handler's effects (`exec_eq_commit`). -/
theorem statusFollowsTheControlSignal : Obligations.StatusFollowsTheControlSignal := by
  refine ⟨fun s e => ⟨fun signal => ?_, fun signal => ?_, fun c signal => ?_⟩, exec_eq_commit⟩
  · rw [State.commit_status, signal, State.react_continue]
  · rw [State.commit_status, signal, State.react_halt, State.halt_status]
  · rw [State.commit_status, signal, State.react_fault, State.raise_status]

end Sys2Proof.Machine
end

section
/-! The text of the output (42_prn.md R96): the numeral of a byte by its number of digits, and a stream's text in parts. -/

namespace Sys2Proof.Machine

/-- The three lengths a numeral can have, with its digits; every fact about the digits is read off here. -/
theorem decimalDigits_cases (v : Byte) :
    (v.toNat < 10 ∧ decimalDigits v = [v.toNat]) ∨
    (10 ≤ v.toNat ∧ v.toNat < 100 ∧ decimalDigits v = [v.toNat / 10, v.toNat % 10]) ∨
    (100 ≤ v.toNat ∧ decimalDigits v = [v.toNat / 100, v.toNat / 10 % 10, v.toNat % 10]) := by
  unfold decimalDigits
  by_cases one : v.toNat < 10
  · exact .inl ⟨one, if_pos one⟩
  · by_cases two : v.toNat < 100
    · exact .inr (.inl ⟨Nat.le_of_not_lt one, two, by simp only [if_neg one, if_pos two]⟩)
    · exact .inr (.inr ⟨Nat.le_of_not_lt two, by simp only [if_neg one, if_neg two]⟩)

theorem decimalDigits_value (v : Byte) : (decimalDigits v).foldl (fun n d => 10 * n + d) 0 = v.toNat := by
  rcases decimalDigits_cases v with ⟨-, digits⟩ | ⟨-, -, digits⟩ | ⟨-, digits⟩ <;>
    simp only [digits, List.foldl_cons, List.foldl_nil] <;> omega

/-- The leading digit of three is below ten because a byte is below 256. -/
theorem decimalDigits_lt_ten (v : Byte) : ∀ d ∈ decimalDigits v, d < 10 := by
  have byte : v.toNat < 256 := v.isLt
  rcases decimalDigits_cases v with ⟨lt, digits⟩ | ⟨-, lt, digits⟩ | ⟨-, digits⟩ <;>
    simp only [digits, List.mem_cons, List.not_mem_nil, or_false, forall_eq_or_imp, forall_eq] <;> omega

theorem decimalDigits_length (v : Byte) : 1 ≤ (decimalDigits v).length ∧ (decimalDigits v).length ≤ 3 := by
  rcases decimalDigits_cases v with ⟨-, digits⟩ | ⟨-, -, digits⟩ | ⟨-, digits⟩ <;> simp [digits]

/-- Two digits lead with at least `10 / 10`, three with at least `100 / 100`; only the numeral of zero leads with zero. -/
theorem decimalDigits_leading_zero (v : Byte) (zero : (decimalDigits v).head? = some 0) :
    v = 0 ∧ (decimalDigits v).length = 1 := by
  rcases decimalDigits_cases v with ⟨-, digits⟩ | ⟨le, -, digits⟩ | ⟨le, digits⟩ <;>
    rw [digits, List.head?_cons, Option.some_inj] at zero
  · exact ⟨BitVec.eq_of_toNat_eq zero, by rw [digits, List.length_singleton]⟩
  · omega
  · omega

theorem renderOut_singleton (lineBreak : List Char) (v : Byte) : renderOut lineBreak [v] = decimal v ++ lineBreak := by
  simp only [renderOut, List.append_nil]

theorem renderOut_append (lineBreak : List Char) (out more : List Byte) :
    renderOut lineBreak (out ++ more) = renderOut lineBreak out ++ renderOut lineBreak more := by
  induction out with
  | nil => rfl
  | cons v out ih => simp only [List.cons_append, renderOut, ih, List.append_assoc]

/-- Settles O48: the numeral's facts are the `decimalDigits` lemmas, by its number of digits; the text of one value is
`renderOut_singleton`, and of a concatenation `renderOut_append`, by induction on the first part. -/
theorem outputTextIsDecimalLines : Obligations.OutputTextIsDecimalLines := by
  refine ⟨fun v => ⟨decimalDigits_value v, decimalDigits_lt_ten v, ?_⟩, renderOut_singleton, renderOut_append⟩
  obtain ⟨atLeastOne, atMostThree⟩ := decimalDigits_length v
  exact ⟨atLeastOne, atMostThree, decimalDigits_leading_zero v⟩

end Sys2Proof.Machine
end

section
/-! `HLT` (43_hlt.md R100): the one-byte form decodes whatever follows, the handler commits the `Halt` signal alone, and no
step leaves a halted state. -/

namespace Sys2Proof.Machine

theorem decode_hlt (rest : List Byte) : decode (0x01#8 :: rest) = .ok (.hlt, rest) :=
  (decode_known rest decoder_hlt).trans (if_neg (Nat.not_lt_zero rest.length))

theorem exec_hlt (s : State) : exec .hlt s = .next s.halt := exec_eq_commit .hlt s

theorem step_hlt {s : State} (running : s.status = .running) (opcode : s.memRead s.pc = 0x01#8) :
    step s = .next s.halt := by
  rw [step_of_fetched running (fetchInstr_of_hlt opcode), exec_hlt]

theorem step_ne_next_of_halted {s : State} (halted : s.status = .halted) (t : State) : step s ≠ .next t := by
  intro next
  obtain ⟨running, -⟩ := step_next_cases next
  rw [halted] at running
  cases running

/-- Settles O15: the clauses are the encoding's definition, `decode_hlt`, `exec_hlt`, `step_hlt` and
`step_ne_next_of_halted`; `State.halt` writes `status` alone. -/
theorem hltHaltsAndKeepsEverythingElse : Obligations.HltHaltsAndKeepsEverythingElse :=
  ⟨rfl, decode_hlt, exec_hlt, fun _ => step_hlt, fun _ t halted => step_ne_next_of_halted halted t⟩

end Sys2Proof.Machine
end

section
/-! An unsupported ALU operation (44_alu_mul.md R108): who raises `UnsupportedOperation`, and that no step does. -/

namespace Sys2Proof.Machine

/-! ### Who raises it -/

theorem aluHandler_of_unsupported {op : AluOp} {a b : Byte} {s : State} (ha : a.toNat < 8) (hb : b.toNat < 8)
    (unsupported : alu op (s.getReg ⟨a.toNat, ha⟩) (s.getReg ⟨b.toNat, hb⟩) = none) :
    aluHandler op a b s = .fault (.unsupportedOperation (aluOpName op)) := by
  simp only [aluHandler, withRegister_of_lt _ _ ha, withRegister_of_lt _ _ hb, unsupported]

/-! ### Who does not -/

/-- An index check raises no other exception than its own. -/
theorem withRegister_signal_ne_unsupported {operand pc : Byte} {handler : RegIndex → Effects} {name : String}
    (checked : ∀ i, (handler i).signal ≠ .fault (.unsupportedOperation name)) :
    (withRegister operand pc handler).signal ≠ .fault (.unsupportedOperation name) := by
  rcases Nat.lt_or_ge operand.toNat 8 with lt | ge
  · rw [withRegister_of_lt pc handler lt]
    exact checked _
  · simp [withRegister_of_ge pc handler ge]

theorem aluHandler_signal_ne_unsupported {op : AluOp} (supported : ∀ va vb, alu op va vb ≠ none) (a b : Byte) (s : State)
    (name : String) : (aluHandler op a b s).signal ≠ .fault (.unsupportedOperation name) := by
  refine withRegister_signal_ne_unsupported fun ia => withRegister_signal_ne_unsupported fun ib => ?_
  cases result : alu op (s.getReg ia) (s.getReg ib) with
  | none => exact absurd result (supported _ _)
  | some r => simp

theorem alu_add_ne_none (va vb : Byte) : alu .add va vb ≠ none := Option.some_ne_none _

theorem alu_mul_ne_none (va vb : Byte) : alu .mul va vb ≠ none := Option.some_ne_none _

/-- `MUL` is the one instruction that asks the ALU, and it asks for a supported operation (R110). -/
theorem handlerOf_signal_ne_unsupported (i : Instr) (s : State) (name : String) :
    (handlerOf i s).signal ≠ .fault (.unsupportedOperation name) := by
  cases i with
  | ldi r v => exact withRegister_signal_ne_unsupported fun _ => nofun
  | prn r => exact withRegister_signal_ne_unsupported fun _ => nofun
  | hlt => nofun
  | mul a b => exact aluHandler_signal_ne_unsupported alu_mul_ne_none a b s name

theorem State.commit_status_ne_error {s : State} {e : Effects} {c : Cause} (running : s.status = .running)
    (signal : e.signal ≠ .fault c) : (s.commit e).status ≠ .error c := by
  rw [State.commit_status]
  match answer : e.signal with
  | .continue => simp [running]
  | .halt => simp
  | .fault c' =>
    rw [State.react_fault, State.raise_status]
    rintro ⟨⟩
    exact signal answer

/-- The step raises `UnknownOpcode` itself, and any other exception is its handler's. -/
theorem step_status_ne_unsupported {s t : State} (next : step s = .next t) (name : String) :
    t.status ≠ .error (.unsupportedOperation name) := by
  obtain ⟨running, ⟨-, rfl⟩ | ⟨i, -, rfl⟩⟩ := step_next_cases next
  · simp
  · exact State.commit_status_ne_error running (handlerOf_signal_ne_unsupported i s name)

/-- Settles O25: an unsupported operation's handler commits the exception alone (`aluHandler_of_unsupported`), `ADD` and
`MUL` always have a result (`aluHandler_signal_ne_unsupported`), and no step gets there (`step_status_ne_unsupported`). -/
theorem unsupportedOperationIsRaisedAndUnreachable : Obligations.UnsupportedOperationIsRaisedAndUnreachable := by
  refine ⟨fun name a b s ha hb => ?_, fun a b s name running => ⟨?_, ?_⟩, fun _ _ name next =>
    step_status_ne_unsupported next name⟩
  · rw [aluHandler_of_unsupported (op := .other name) ha hb rfl, State.commit_fault]
    rfl
  · exact State.commit_status_ne_error running (aluHandler_signal_ne_unsupported alu_add_ne_none a b s name)
  · exact State.commit_status_ne_error running (aluHandler_signal_ne_unsupported alu_mul_ne_none a b s name)

end Sys2Proof.Machine
end

section
/-! `MUL` on two registers (44_alu_mul.md R106, R110): the ALU's product is multiplication of bytes. -/

namespace Sys2Proof.Machine

/-- The exact product modulo 256 is the product of bytes (R106). -/
theorem alu_mul (va vb : Byte) : alu .mul va vb = some (va * vb) := by
  have reduced : BitVec.ofNat 8 (va.toNat * vb.toNat % 256) = va * vb :=
    BitVec.eq_of_toNat_eq (by rw [BitVec.toNat_ofNat, BitVec.toNat_mul, Nat.mod_mod])
  rw [alu, reduced]

theorem exec_mul_ofNat (ia ib : RegIndex) (s : State) :
    exec (.mul (BitVec.ofNat 8 ia) (BitVec.ofNat 8 ib)) s =
      .next ((s.setReg ia (s.getReg ia * s.getReg ib)).advancePc (some 3)) := by
  rw [exec_eq_commit, handlerOf, handleMul, aluHandler, withRegister_ofNat, withRegister_ofNat, alu_mul]
  rfl

/-- Settles O17: the ALU's result is the product of bytes (`alu_mul`), which is the natural product modulo 256; `MUL`
writes it to the first register (`exec_mul_ofNat`), and the advance of `pc` leaves all else alone. -/
theorem mulKeepsTheLowByteOfTheProduct : Obligations.MulKeepsTheLowByteOfTheProduct := by
  refine ⟨fun va vb => ⟨va * vb, alu_mul va vb, BitVec.toNat_mul va vb⟩, fun ia ib s =>
    ⟨_, exec_mul_ofNat ia ib s, ?_⟩⟩
  have read (j : RegIndex) : ((s.setReg ia (s.getReg ia * s.getReg ib)).advancePc (some 3)).getReg j =
      if j = ia then s.getReg ia * s.getReg ib else s.getReg j := by
    rw [State.getReg_congr (State.advancePc_regs _ _), State.getReg_setReg]
  refine ⟨?_, fun j other => ?_, rfl, rfl, rfl⟩
  · rw [read, if_pos rfl, BitVec.toNat_mul]
  · rw [read, if_neg other]

end Sys2Proof.Machine
end

section
/-! Decoding and encoding (30_encoding.md R50 to R59): the two directions of the round trip, and the three refusals. -/

namespace Sys2Proof

/-! ### The operand count is in the opcode (R51) -/

theorem operandCount_toNat (opcode : Byte) : (operandCount opcode).toNat = opcode.toNat / 64 := by
  have byte : opcode.toNat < 256 := opcode.isLt
  simp only [operandCount, BitVec.extractLsb'_toNat, Nat.shiftRight_eq_div_pow]
  omega

theorem decoder_nops {opcode : Byte} {d : Decoded} (known : decoder opcode = some d) :
    d.nops.toNat = opcode.toNat / 64 := by
  rw [← operandCount_toNat]
  rcases decoder_cases opcode with ⟨rfl, row⟩ | ⟨rfl, row⟩ | ⟨rfl, row⟩ | ⟨rfl, row⟩ | ⟨-, -, -, -, row⟩ <;>
    cases row.symm.trans known <;> rfl

theorem decoder_width {opcode : Byte} {d : Decoded} (known : decoder opcode = some d) :
    d.width.toNat = d.nops.toNat + 1 := by
  rcases decoder_cases opcode with ⟨-, row⟩ | ⟨-, row⟩ | ⟨-, row⟩ | ⟨-, row⟩ | ⟨-, -, -, -, row⟩ <;>
    cases row.symm.trans known <;> rfl

theorem decoder_eq_none_iff (opcode : Byte) :
    decoder opcode = none ↔ opcode ∉ [0x82#8, 0x47#8, 0x01#8, 0xA2#8] := by
  rw [← Option.not_isSome_iff_eq_none, Machine.decoder_isSome_iff]
  simp

/-- Settles O1: each word is read by `decode`, which computes. -/
theorem decodesTheWrittenEncodings : Obligations.DecodesTheWrittenEncodings := by
  unfold Obligations.DecodesTheWrittenEncodings
  decide

/-- Settles O2: the rows are the decoder's four answers; the law is `decoder_nops` and `decoder_width`. -/
theorem decoderOutputsPerOpcode : Obligations.DecoderOutputsPerOpcode :=
  ⟨decoder_ldi, decoder_prn, decoder_hlt, decoder_mul, fun _ _ known =>
    ⟨decoder_nops known, by rw [decoder_width known, decoder_nops known]⟩⟩

/-! ### The round trip -/

theorem decode_encode (i : Instr) (rest : List Byte) : decode (encode i ++ rest) = .ok (i, rest) := by
  have enough (n : Nat) : ¬ rest.length + n < n := Nat.not_lt.mpr (Nat.le_add_left n _)
  cases i with
  | ldi r v => exact (decode_known _ decoder_ldi).trans (if_neg (enough 2))
  | prn r => exact (decode_known _ decoder_prn).trans (if_neg (enough 1))
  | hlt => exact Machine.decode_hlt rest
  | mul a b => exact (decode_known _ decoder_mul).trans (if_neg (enough 2))

/-- The opcode and as many operand bytes as its two high bits say, which are at most the two fetched (R51, R58). -/
theorem encode_toInstr {opcode : Byte} {d : Decoded} (known : decoder opcode = some d) (a b : Byte) :
    encode (d.kind.toInstr a b) = opcode :: [a, b].take d.nops.toNat ∧ d.nops.toNat ≤ 2 := by
  rcases decoder_cases opcode with ⟨rfl, row⟩ | ⟨rfl, row⟩ | ⟨rfl, row⟩ | ⟨rfl, row⟩ | ⟨-, -, -, -, row⟩ <;>
    cases row.symm.trans known <;> exact ⟨rfl, by decide⟩

theorem take_fetched {tail : List Byte} {n : Nat} (enough : n ≤ tail.length) (two : n ≤ 2) :
    [tail.getD 0 0, tail.getD 1 0].take n = tail.take n := by
  match n, tail with
  | 0, _ => rfl
  | 1, _ :: _ => rfl
  | 2, _ :: _ :: _ => rfl

theorem eq_encode_append_of_decode {bytes : List Byte} {i : Instr} {rest : List Byte}
    (decoded : decode bytes = .ok (i, rest)) : bytes = encode i ++ rest := by
  cases bytes with
  | nil => cases decoded
  | cons opcode tail =>
    cases answer : decoder opcode with
    | none => cases (decode_unknown tail answer).symm.trans decoded
    | some d =>
      rw [decode_known tail answer] at decoded
      split at decoded
      · cases decoded
      · next enough =>
        cases decoded
        obtain ⟨encoded, two⟩ := encode_toInstr answer (tail.getD 0 0) (tail.getD 1 0)
        rw [encoded, take_fetched (Nat.le_of_not_lt enough) two, List.cons_append, List.take_append_drop]

/-- Settles O3: `decode_encode`, by the instruction, and `eq_encode_append_of_decode`, by the decoder's answer. -/
theorem decodeAndEncodeAreInverse : Obligations.DecodeAndEncodeAreInverse :=
  ⟨decode_encode, fun _ _ _ => eq_encode_append_of_decode⟩

/-! ### The refusals -/

theorem decode_cons_eq_error_iff (opcode : Byte) (rest : List Byte) (e : DecodeError) :
    decode (opcode :: rest) = .error e ↔
      (opcode ∉ [0x82#8, 0x47#8, 0x01#8, 0xA2#8] ∧ e = .unknownOpcode opcode) ∨
        (opcode ∈ [0x82#8, 0x47#8, 0x01#8, 0xA2#8] ∧ rest.length < opcode.toNat / 64 ∧ e = .truncated opcode) := by
  cases answer : decoder opcode with
  | none =>
    have unknown := (decoder_eq_none_iff opcode).mp answer
    simp only [decode_unknown rest answer, unknown, Except.error.injEq, not_false_eq_true, true_and, false_and, or_false,
      eq_comm]
  | some d =>
    have known : opcode ∈ [0x82#8, 0x47#8, 0x01#8, 0xA2#8] :=
      not_not.mp fun absent => by simp [(decoder_eq_none_iff opcode).mpr absent] at answer
    rw [decode_known rest answer, decoder_nops answer]
    by_cases short : rest.length < opcode.toNat / 64
    · simp only [known, short, if_pos, Except.error.injEq, not_true_eq_false, true_and, false_and, false_or, eq_comm]
    · simp only [known, short, if_neg, not_true_eq_false, not_false_eq_true, reduceCtorEq, false_and, and_false, or_self]

/-- Settles O4: no byte, or the first byte and `decode_cons_eq_error_iff`. -/
theorem decodeRefusesByName : Obligations.DecodeRefusesByName := by
  intro bytes e
  cases bytes with
  | nil => simp [decode_nil, eq_comm]
  | cons opcode rest =>
    rw [decode_cons_eq_error_iff]
    simp

end Sys2Proof
end

section
/-! The fetch (40_fetch_decode_dispatch.md R71, R73; 20_memory.md R34): three bytes at `pc` are all a step reads. -/

namespace Sys2Proof.Machine

/-! ### The fetched instruction is the decoded one -/

theorem fetchInstr_of_decode {s : State} {i : Instr} {rest : List Byte}
    (decoded : decode [s.opcode, s.operandA, s.operandB] = .ok (i, rest)) : s.fetchInstr = some i := by
  cases answer : decoder s.opcode with
  | none => cases (decode_unknown _ answer).symm.trans decoded
  | some d =>
    rw [decode_known _ answer] at decoded
    split at decoded
    · cases decoded
    · cases decoded
      simp [State.fetchInstr, answer]

theorem step_of_decode {s : State} {i : Instr} {rest : List Byte} (running : s.status = .running)
    (decoded : decode [s.opcode, s.operandA, s.operandB] = .ok (i, rest)) : step s = exec i s :=
  step_of_fetched running (fetchInstr_of_decode decoded)

/-- Settles O5: `step_of_decode`, the three bytes being the fetch unit's. -/
theorem stepRunsTheDecodedInstruction : Obligations.StepRunsTheDecodedInstruction :=
  fun _ _ _ => step_of_decode

/-- Settles O9: `step_of_running` and `step_of_ended`. -/
theorem stepExistsExactlyWhileRunning : Obligations.StepExistsExactlyWhileRunning :=
  fun _ => ⟨step_of_running, step_of_ended⟩

/-! ### Bytes placed at the fetch -/

theorem State.storeBytes_eq_replaceMem (s : State) (a : Byte) (bytes : List Byte) :
    s.storeBytes a bytes = { s with mem := (s.storeBytes a bytes).mem } := by
  induction bytes generalizing s a with
  | nil => rfl
  | cons b rest ih => exact ih (s.memWrite a b) (a + 1)

theorem State.placeFetch_pc (s : State) (bytes : List Byte) : (s.placeFetch bytes).pc = s.pc := by
  rw [State.placeFetch, State.storeBytes_eq_replaceMem]

theorem State.placeFetch_memRead (s : State) (bytes : List Byte) (a : Byte) :
    (s.placeFetch bytes).memRead a = (s.storeBytes s.pc bytes).memRead a := rfl

/-- The three addresses are distinct modulo 256, so a later store keeps an earlier one (D3). -/
theorem State.placeFetch_fetched (s : State) (x y z : Byte) :
    [(s.placeFetch [x, y, z]).opcode, (s.placeFetch [x, y, z]).operandA, (s.placeFetch [x, y, z]).operandB] =
      [x, y, z] := by
  have first : s.pc ≠ s.pc + 1 := by bv_omega
  have first' : s.pc ≠ s.pc + 1 + 1 := by bv_omega
  have second : s.pc + 1 ≠ s.pc + 1 + 1 := by bv_omega
  have third : s.pc + 2 = s.pc + 1 + 1 := by bv_omega
  simp only [State.opcode, State.operandA, State.operandB, State.placeFetch_pc, State.placeFetch_memRead, State.storeBytes,
    State.memRead_memWrite, third, if_neg first, if_neg first', if_neg second, if_true]

theorem decode_of_decodeTableWord {nbits w : Nat} {i : Instr} (word : decodeTableWord nbits w = some i) :
    ∃ rest, decode (tableBytes nbits w) = .ok (i, rest) := by
  unfold decodeTableWord at word
  split at word
  · next j rest decoded =>
    cases word
    exact ⟨rest, decoded⟩
  · cases word

/-- Settles O33: the fetch of the placed state reads the word's bytes (`State.placeFetch_fetched`), so its step is exec of
what they decode to; the stores replace memory alone, and a running state has the status that placing gives. -/
theorem placedWordIsTheNextInstruction : Obligations.PlacedWordIsTheNextInstruction := by
  refine ⟨fun s nbits w i word => ?_, fun s nbits w running => ?_⟩
  · obtain ⟨rest, decoded⟩ := decode_of_decodeTableWord word
    exact step_of_decode rfl ((congrArg decode (s.placeFetch_fetched _ _ _)).trans decoded)
  · refine ⟨(s.storeBytes s.pc (tableBytes nbits w)).mem, ?_⟩
    rw [State.withFetchWord, State.placeFetch, State.storeBytes_eq_replaceMem, ← running]

/-! ### Cells the fetch does not read -/

theorem fetchInstr_replaceMem {s : State} {m : Memory} (opcode : m.read s.pc.toNat = s.memRead s.pc)
    (operands : decoder (s.memRead s.pc) = none ∨
      m.read (s.pc + 1).toNat = s.memRead (s.pc + 1) ∧ m.read (s.pc + 2).toNat = s.memRead (s.pc + 2)) :
    State.fetchInstr { s with mem := m } = s.fetchInstr := by
  have opcode' : State.opcode { s with mem := m } = s.opcode := opcode
  rcases operands with unknown | ⟨operandA, operandB⟩
  · rw [fetchInstr_of_unknown unknown, fetchInstr_of_unknown (opcode' ▸ unknown)]
  · have operandA' : State.operandA { s with mem := m } = s.operandA := operandA
    have operandB' : State.operandB { s with mem := m } = s.operandB := operandB
    simp only [State.fetchInstr, opcode', operandA', operandB']

/-- Settles O8: both memories fetch the same (`fetchInstr_replaceMem`); an instruction then looks at no memory
(`step_replaceMem_of_fetched`), and an unknown opcode is raised with the opcode that both hold. -/
theorem stepReadsOnlyTheInstructionBytes : Obligations.StepReadsOnlyTheInstructionBytes := by
  intro s m running opcode operands
  have same := fetchInstr_replaceMem opcode operands
  cases fetched : s.fetchInstr with
  | some i => exact step_replaceMem_of_fetched running fetched (same.trans fetched)
  | none =>
    have running' : State.status { s with mem := m } = .running := running
    have opcode' : State.opcode { s with mem := m } = s.opcode := opcode
    refine ⟨_, step_of_unknown running fetched, ?_⟩
    rw [step_of_unknown running' (same.trans fetched), opcode']
    rfl

end Sys2Proof.Machine
end

section
/-! What a handler answers, by whether the register operands are valid (40_fetch_decode_dispatch.md R76; 30_encoding.md
R54; 60_exceptions.md R123, R126), and what an instruction leaves unchanged (10_state.md section 2). -/

namespace Sys2Proof

/-! ### The operand an index exception blames -/

/-- The first register operand, in the order of the checks, that names no register (60_exceptions.md R126; D9). -/
def Instr.firstBad (i : Instr) : Option Byte := i.registerOperands.find? fun r => !validRegister r

theorem Instr.wellFormed_iff (i : Instr) : i.wellFormed = true ↔ i.firstBad = none := by
  simp [Instr.wellFormed, Instr.firstBad]

theorem Instr.firstBad_of_illFormed {i : Instr} (illFormed : i.wellFormed = false) : ∃ r, i.firstBad = some r := by
  rw [← Option.ne_none_iff_exists', ne_eq, ← i.wellFormed_iff, illFormed]
  exact Bool.false_ne_true

theorem validRegister_eq (r : Byte) : validRegister r = decide (r.toNat < 8) := rfl

@[simp] theorem Instr.firstBad_ldi (r v : Byte) : (Instr.ldi r v).firstBad = if r.toNat < 8 then none else some r := by
  by_cases valid : r.toNat < 8 <;> simp [Instr.firstBad, Instr.registerOperands, validRegister_eq, valid]

@[simp] theorem Instr.firstBad_prn (r : Byte) : (Instr.prn r).firstBad = if r.toNat < 8 then none else some r :=
  Instr.firstBad_ldi r 0

@[simp] theorem Instr.firstBad_hlt : Instr.hlt.firstBad = none := rfl

@[simp] theorem Instr.firstBad_mul (a b : Byte) :
    (Instr.mul a b).firstBad = if a.toNat < 8 then if b.toNat < 8 then none else some b else some a := by
  by_cases validA : a.toNat < 8 <;> by_cases validB : b.toNat < 8 <;>
    simp [Instr.firstBad, Instr.registerOperands, List.find?, validRegister_eq, validA, validB]

theorem Instr.firstBad_ge {i : Instr} {r : Byte} (bad : i.firstBad = some r) : 8 ≤ r.toNat := by
  have invalid := List.find?_some bad
  simpa [validRegister_eq] using invalid

end Sys2Proof

namespace Sys2Proof.Machine

/-! ### The answers of a handler -/

theorem handlerOf_of_firstBad {i : Instr} {r : Byte} (bad : i.firstBad = some r) (s : State) :
    handlerOf i s = .fault (.registerIndexOutOfRange r s.pc) := by
  rcases handlerOf_cases i s with
    ⟨r', v, valid, rfl, -⟩ | ⟨r', valid, rfl, -⟩ | ⟨rfl, -⟩ | ⟨a, b, validA, validB, rfl, -⟩ | ⟨r', bad', answer⟩
  case inr.inr.inr.inr =>
    cases bad.symm.trans bad'
    exact answer
  all_goals simp [*] at bad

theorem handlerOf_of_wellFormed {i : Instr} (wellFormed : i.wellFormed = true) (notHlt : i ≠ .hlt) (s : State) :
    (handlerOf i s).signal = .continue ∧ ∃ w, (handlerOf i s).advance = some w ∧ w.toNat = (encode i).length := by
  rcases handlerOf_cases i s with
    ⟨r, v, valid, rfl, answer⟩ | ⟨r, valid, rfl, answer⟩ | ⟨rfl, -⟩ | ⟨a, b, validA, validB, rfl, answer⟩ | ⟨r, bad, -⟩
  · exact answer ▸ ⟨rfl, 3, rfl, rfl⟩
  · exact answer ▸ ⟨rfl, 2, rfl, rfl⟩
  · exact absurd rfl notHlt
  · exact answer ▸ ⟨rfl, 3, rfl, rfl⟩
  · cases (i.wellFormed_iff.mp wellFormed).symm.trans bad

/-- Settles O11: the signals are `handlerOf_of_wellFormed` and `handlerOf_of_firstBad`; that of `HLT` is its definition. -/
theorem handlersAnswerTheirSignals : Obligations.HandlersAnswerTheirSignals := by
  refine fun i s => ⟨?_, fun notHlt wellFormed => handlerOf_of_wellFormed wellFormed notHlt s, fun illFormed => ?_⟩
  · rintro rfl
    rfl
  · obtain ⟨r, bad⟩ := Instr.firstBad_of_illFormed illFormed
    exact ⟨r, handlerOf_of_firstBad bad s⟩

/-- The only register a handler writes is the one its first operand names (10_state.md R12). -/
theorem destination_of_write {i : Instr} {s : State} {j : RegIndex} {v : Byte}
    (written : (handlerOf i s).write = some (j, v)) : i.destination = some (BitVec.ofNat 8 j) := by
  rcases handlerOf_cases i s with
    ⟨r, w, valid, rfl, answer⟩ | ⟨r, valid, rfl, answer⟩ | ⟨rfl, answer⟩ | ⟨a, b, validA, validB, rfl, answer⟩ |
      ⟨r, bad, answer⟩ <;>
    rw [answer] at written <;> cases written <;> simp [Instr.destination]

/-- `PRN` of a register is the one instruction that emits, and it emits that register (42_prn.md R95). -/
theorem handlerOf_emit_iff {i : Instr} {s : State} {v : Byte} :
    (handlerOf i s).emit = some v ↔ ∃ (r : Byte) (h : r.toNat < 8), i = .prn r ∧ v = s.regs[r.toNat] := by
  rcases handlerOf_cases i s with
    ⟨r, w, valid, rfl, answer⟩ | ⟨r, valid, rfl, answer⟩ | ⟨rfl, answer⟩ | ⟨a, b, validA, validB, rfl, answer⟩ |
      ⟨r, bad, answer⟩
  · simp [answer]
  · simp [answer, State.getReg, valid, eq_comm]
  · simp [answer]
  · simp [answer]
  · constructor
    · simp [answer]
    · rintro ⟨r', valid, rfl, -⟩
      have none := Instr.firstBad_prn r'
      rw [if_pos valid] at none
      cases none.symm.trans bad

/-! ### Executing -/

theorem eq_commit_of_exec {i : Instr} {s t : State} (next : exec i s = .next t) : t = s.commit (handlerOf i s) := by
  rw [exec_eq_commit] at next
  cases next
  rfl

theorem exec_of_firstBad {i : Instr} {r : Byte} (bad : i.firstBad = some r) (s : State) :
    exec i s = .next (s.raise (.registerIndexOutOfRange r s.pc)) := by
  rw [exec_eq_commit, handlerOf_of_firstBad bad, State.commit_fault]

theorem exec_status_of_wellFormed {i : Instr} (wellFormed : i.wellFormed = true) (s : State) :
    (s.commit (handlerOf i s)).status = if i = .hlt then .halted else s.status := by
  by_cases isHlt : i = .hlt
  · subst isHlt
    rfl
  · rw [State.commit_status, (handlerOf_of_wellFormed wellFormed isHlt s).1, State.react_continue, if_neg isHlt]

/-- Settles O20: by the operand to blame. Without one the status is that of `exec_status_of_wellFormed`; with one
`handlerOf_of_firstBad` says which exception is committed. -/
theorem indexExceptionExactlyWhenIllFormed : Obligations.IndexExceptionExactlyWhenIllFormed := by
  refine fun i s running => ⟨_, exec_eq_commit i s, ?_⟩
  change _ ∧ ∀ index pc, _ ↔ pc = s.pc ∧ i.firstBad = some index
  rw [i.wellFormed_iff]
  cases bad : i.firstBad with
  | none =>
    rw [exec_status_of_wellFormed (i.wellFormed_iff.mpr bad), running]
    by_cases isHlt : i = .hlt <;> simp [isHlt]
  | some r =>
    rw [handlerOf_of_firstBad bad, State.commit_fault, State.raise_status]
    simp [and_comm, eq_comm]

/-- Settles O18: the operand is the first bad one, so `exec_of_firstBad` applies. -/
theorem ldiAndPrnRaiseOnABadIndex : Obligations.LdiAndPrnRaiseOnABadIndex := by
  refine fun r v s bad => ⟨exec_of_firstBad ?_ s, exec_of_firstBad ?_ s⟩ <;> simp [Nat.not_lt.mpr bad]

/-- Settles O19: `operand_a` is the first bad one, or else `operand_b`, so `exec_of_firstBad` applies. -/
theorem mulRaisesOnTheFirstBadIndex : Obligations.MulRaisesOnTheFirstBadIndex := by
  refine ⟨fun a b s badA => exec_of_firstBad ?_ s, fun a b s validA badB => exec_of_firstBad ?_ s⟩
  · simp [Nat.not_lt.mpr badA]
  · simp [validA, Nat.not_lt.mpr badB]

/-! ### Executing on valid registers -/

theorem ofNat_toNat_index (r : Byte) (valid : r.toNat < 8) : BitVec.ofNat 8 (⟨r.toNat, valid⟩ : RegIndex) = r := by
  simp

/-- Settles O12: `exec_ldi_ofNat` at the register that the operand names. -/
theorem ldiWritesTheImmediate : Obligations.LdiWritesTheImmediate := by
  intro r v s valid
  have completes := exec_ldi_ofNat ⟨r.toNat, valid⟩ v s
  rwa [ofNat_toNat_index] at completes

/-- Settles O14: the valid operand's handler, committed. -/
theorem prnEmitsTheRegister : Obligations.PrnEmitsTheRegister := by
  intro r s valid
  rw [exec_eq_commit, handlerOf, handlePrn, withRegister_of_lt _ _ valid]
  rfl

/-- Settles O16: `exec_mul_ofNat` at the registers that the operands name; the product of bytes is by definition the
natural product modulo 256. -/
theorem mulWritesTheProduct : Obligations.MulWritesTheProduct := by
  intro a b s validA validB
  have completes := exec_mul_ofNat ⟨a.toNat, validA⟩ ⟨b.toNat, validB⟩ s
  rwa [ofNat_toNat_index, ofNat_toNat_index] at completes

/-! ### Frames -/

theorem getReg_exec_of_ne_destination {i : Instr} {s : State} {j : RegIndex}
    (other : i.destination ≠ some (BitVec.ofNat 8 j)) : (s.commit (handlerOf i s)).getReg j = s.getReg j := by
  rw [State.getReg_congr (State.commit_regs s _)]
  match written : (handlerOf i s).write with
  | none => rfl
  | some (k, v) =>
    have ne : j ≠ k := by
      rintro rfl
      exact other (destination_of_write written)
    rw [State.writePort_some, State.getReg_setReg, if_neg ne]

theorem regs_exec_of_no_destination {i : Instr} {s : State} (noDestination : i.destination = none) :
    (s.commit (handlerOf i s)).regs = s.regs := by
  rw [State.commit_regs]
  match written : (handlerOf i s).write with
  | none => rfl
  | some (k, v) => cases noDestination.symm.trans (destination_of_write written)

theorem memRead_exec (i : Instr) (s : State) (a : Byte) : (s.commit (handlerOf i s)).memRead a = s.memRead a :=
  State.memRead_congr (State.commit_mem s _) a

theorem out_exec_of_not_prn {i : Instr} {s : State} (notPrn : ∀ r, i ≠ .prn r) :
    (s.commit (handlerOf i s)).out = s.out := by
  rw [State.commit_out]
  cases emitted : (handlerOf i s).emit with
  | none => simp
  | some v =>
    obtain ⟨r, -, isPrn, -⟩ := handlerOf_emit_iff.mp emitted
    exact absurd isPrn (notPrn r)

/-- Settles O21: the parts are `getReg_exec_of_ne_destination`, `handlerOf_of_firstBad`, `exec_status_of_wellFormed`,
`memRead_exec` and `out_exec_of_not_prn`. -/
theorem frameOfTheRegisterWriters : Obligations.FrameOfTheRegisterWriters := by
  intro i s t writer next
  obtain rfl := eq_commit_of_exec next
  have notHlt : i ≠ .hlt := by rcases writer with ⟨_, _, rfl⟩ | ⟨_, _, rfl⟩ <;> nofun
  have notPrn : ∀ r, i ≠ .prn r := by rcases writer with ⟨_, _, rfl⟩ | ⟨_, _, rfl⟩ <;> nofun
  refine ⟨fun j => getReg_exec_of_ne_destination, fun illFormed => ?_, fun wellFormed => ?_, memRead_exec i s,
    out_exec_of_not_prn notPrn⟩
  · obtain ⟨r, bad⟩ := Instr.firstBad_of_illFormed illFormed
    rw [handlerOf_of_firstBad bad, State.commit_fault]
    exact ⟨rfl, rfl⟩
  · rw [exec_status_of_wellFormed wellFormed, if_neg notHlt]

/-- Settles O22: `PRN` has no destination register; a bad operand commits the exception alone. -/
theorem frameOfPrn : Obligations.FrameOfPrn := by
  intro r s t next
  obtain rfl := eq_commit_of_exec next
  refine ⟨regs_exec_of_no_destination rfl, memRead_exec _ s, ⟨_, (State.commit_out s _).symm⟩, fun valid => ?_,
    fun bad => ?_⟩
  · have wellFormed : (Instr.prn r).wellFormed = true := by simp [Instr.wellFormed_iff, valid]
    rw [exec_status_of_wellFormed wellFormed, if_neg nofun]
  · have blamed : (Instr.prn r).firstBad = some r := by simp [Nat.not_lt.mpr bad]
    rw [handlerOf_of_firstBad blamed, State.commit_fault]
    exact ⟨rfl, rfl⟩

/-- Settles O23: `HLT` is the clean stop (`exec_hlt`), which writes the status alone. -/
theorem frameOfHlt : Obligations.FrameOfHlt := by
  intro s t next
  rw [exec_hlt] at next
  cases next
  exact ⟨rfl, rfl, fun _ => rfl, rfl⟩

end Sys2Proof.Machine
end

section
/-! What every step does (40_fetch_decode_dispatch.md R81): its four outcomes, the rules of the whole machine read off
them, and the invariant. -/

namespace Sys2Proof.Machine

/-! ### The fetched instruction and the opcode byte -/

theorem decoder_eq_none_of_fetchInstr {s : State} (notFetched : s.fetchInstr = none) : decoder s.opcode = none :=
  Option.map_eq_none_iff.mp notFetched

theorem fetchInstr_eq_hlt_iff (s : State) : s.fetchInstr = some .hlt ↔ s.opcode = 0x01#8 := by
  rcases fetchInstr_cases s with
    ⟨opcode, fetched⟩ | ⟨opcode, fetched⟩ | ⟨opcode, fetched⟩ | ⟨opcode, fetched⟩ | ⟨-, -, opcode, -, -, fetched⟩ <;>
    simp [opcode, fetched]

theorem encode_length_of_fetched {s : State} {i : Instr} (fetched : s.fetchInstr = some i) :
    (encode i).length = 1 + s.opcode.toNat / 64 := by
  rcases fetchInstr_cases s with
    ⟨opcode, row⟩ | ⟨opcode, row⟩ | ⟨opcode, row⟩ | ⟨opcode, row⟩ | ⟨-, -, -, -, -, row⟩ <;>
    cases row.symm.trans fetched <;> rw [opcode] <;> rfl

/-! ### The outcomes of a step -/

/-- The next states a running core can step to: it raises one of its two exceptions, halts, or goes on. -/
inductive StepOutcome (s : State) : State → Prop
  | unknown (notFetched : s.fetchInstr = none) : StepOutcome s (s.raise (.unknownOpcode s.opcode s.pc))
  | badIndex {i : Instr} {index : Byte} (fetched : s.fetchInstr = some i) (bad : i.firstBad = some index) :
      StepOutcome s (s.raise (.registerIndexOutOfRange index s.pc))
  | halts (fetched : s.fetchInstr = some .hlt) : StepOutcome s s.halt
  | continues {i : Instr} (fetched : s.fetchInstr = some i) (wellFormed : i.wellFormed = true) (notHlt : i ≠ .hlt) :
      StepOutcome s (s.commit (handlerOf i s))

theorem stepOutcome_of_step {s t : State} (next : step s = .next t) : s.status = .running ∧ StepOutcome s t := by
  obtain ⟨running, ⟨notFetched, rfl⟩ | ⟨i, fetched, rfl⟩⟩ := step_next_cases next
  · exact ⟨running, .unknown notFetched⟩
  · refine ⟨running, ?_⟩
    cases bad : i.firstBad with
    | some index =>
      rw [handlerOf_of_firstBad bad, State.commit_fault]
      exact .badIndex fetched bad
    | none =>
      by_cases isHlt : i = .hlt
      · subst isHlt
        exact .halts fetched
      · exact .continues fetched (i.wellFormed_iff.mpr bad) isHlt

/-- An instruction that goes on keeps the core running, with `pc` past its own bytes (R77). -/
theorem continues_status_pc {s : State} {i : Instr} (fetched : s.fetchInstr = some i) (wellFormed : i.wellFormed = true)
    (notHlt : i ≠ .hlt) : (s.commit (handlerOf i s)).status = s.status ∧
      (s.commit (handlerOf i s)).pc.toNat = (s.pc.toNat + 1 + s.opcode.toNat / 64) % 256 := by
  obtain ⟨signal, w, advance, width⟩ := handlerOf_of_wellFormed wellFormed notHlt s
  refine ⟨by rw [State.commit_status, signal, State.react_continue], ?_⟩
  have small : w.toNat < 256 := Nat.lt_trans w.isLt (by decide)
  rw [State.commit_pc, advance, State.advancePc_some_pc, BitVec.toNat_add, BitVec.toNat_setWidth, Nat.mod_eq_of_lt small,
    width, encode_length_of_fetched fetched, Nat.add_assoc]

/-! ### The rules of the whole machine -/

/-- Settles O34: a step that goes on has the `pc` of `continues_status_pc`; the other outcomes end the run and keep it. -/
theorem pcAdvancesByTheEncodedWidth : Obligations.PcAdvancesByTheEncodedWidth := by
  intro s t next
  obtain ⟨running, outcome⟩ := stepOutcome_of_step next
  cases outcome with
  | unknown => exact ⟨nofun, fun _ => rfl⟩
  | badIndex => exact ⟨nofun, fun _ => rfl⟩
  | halts => exact ⟨nofun, fun _ => rfl⟩
  | continues fetched wellFormed notHlt =>
    obtain ⟨status, pc⟩ := continues_status_pc fetched wellFormed notHlt
    exact ⟨fun _ => pc, fun ended => absurd (status.trans running) ended⟩

/-- Settles O35: by `fetchInstr_eq_hlt_iff` the byte says which outcome it is. -/
theorem onlyHltHalts : Obligations.OnlyHltHalts := by
  intro s t next
  obtain ⟨running, outcome⟩ := stepOutcome_of_step next
  change t.status = .halted ↔ s.opcode = 0x01#8
  rw [← fetchInstr_eq_hlt_iff]
  cases outcome with
  | unknown notFetched => simp [notFetched]
  | badIndex fetched bad =>
    rw [fetched]
    refine iff_of_false nofun ?_
    rintro ⟨⟩
    cases bad
  | halts fetched => exact iff_of_true rfl fetched
  | continues fetched wellFormed notHlt =>
    rw [(continues_status_pc fetched wellFormed notHlt).1, running, fetched]
    exact iff_of_false nofun fun isHlt => notHlt (Option.some_inj.mp isHlt)

/-- Settles O36: the two outcomes that are a raise; the blamed index is invalid by `Instr.firstBad_ge`. -/
theorem exceptionChangesOnlyTheStatus : Obligations.ExceptionChangesOnlyTheStatus := by
  intro s t c next error
  obtain ⟨running, outcome⟩ := stepOutcome_of_step next
  cases outcome with
  | unknown =>
    cases error
    refine ⟨rfl, ?_, nofun⟩
    rintro _ _ ⟨⟩
    exact ⟨rfl, rfl⟩
  | badIndex fetched bad =>
    cases error
    refine ⟨rfl, nofun, ?_⟩
    rintro _ _ ⟨⟩
    exact ⟨rfl, Instr.firstBad_ge bad⟩
  | halts => cases error
  | continues fetched wellFormed notHlt =>
    rw [(continues_status_pc fetched wellFormed notHlt).1, running] at error
    cases error

/-- The operand that an index exception blames, with the range of registers written out. -/
theorem find?_ge_eq_firstBad (i : Instr) : i.registerOperands.find? (fun r => decide (8 ≤ r.toNat)) = i.firstBad := by
  have same : (fun r : Byte => decide (8 ≤ r.toNat)) = fun r => !validRegister r := by
    funext r
    simp [validRegister_eq, ← decide_not]
  rw [same, Instr.firstBad]

/-- Settles O37: each outcome says what was fetched, which operand is bad and which exception, if any, is raised. -/
theorem checksAreMadeInOrder : Obligations.ChecksAreMadeInOrder := by
  intro s t next
  obtain ⟨running, outcome⟩ := stepOutcome_of_step next
  change (decoder s.opcode = none ↔ t.status = .error (.unknownOpcode s.opcode s.pc)) ∧ _
  have unknown : decoder s.opcode = none ↔ s.fetchInstr = none :=
    ⟨fetchInstr_of_unknown, decoder_eq_none_of_fetchInstr⟩
  simp only [find?_ge_eq_firstBad, unknown]
  cases outcome with
  | unknown notFetched => simp [notFetched]
  | badIndex fetched bad => simp [fetched, bad]
  | halts fetched => simp [fetched]
  | continues fetched wellFormed notHlt =>
    rw [(continues_status_pc fetched wellFormed notHlt).1, running]
    simp [fetched, (Instr.wellFormed_iff _).mp wellFormed]

/-! ### What every step keeps, every run keeps -/

theorem step_mem {s t : State} (next : step s = .next t) : t.mem = s.mem := by
  obtain ⟨-, outcome⟩ := stepOutcome_of_step next
  cases outcome with
  | unknown => rfl
  | badIndex => rfl
  | halts => rfl
  | continues => exact State.commit_mem s _

theorem runFor_keeps {P : State → Prop} (keeps : ∀ s t, P s → step s = .next t → P t) (n : Nat) {s : State} (start : P s) :
    P (runFor n s) := by
  induction n generalizing s with
  | zero => exact start
  | succ n ih =>
    by_cases running : s.status = .running
    · obtain ⟨t, next⟩ := step_of_running running
      rw [runFor_succ_of_next next]
      exact ih (keeps s t start next)
    · rwa [runFor_of_ended running]

/-- Settles O38: `step_mem`, and the run by `runFor_keeps`. -/
theorem noInstructionWritesMemory : Obligations.NoInstructionWritesMemory :=
  ⟨fun _ _ => step_mem, fun n s => runFor_keeps (P := (·.mem = s.mem)) (fun _ _ same next => (step_mem next).trans same)
    n rfl⟩

end Sys2Proof.Machine

namespace Sys2Proof.Safety

open Sys2Proof.Machine

/-! ### The invariant -/

theorem statusTrue_of_running {s : State} (running : s.status = .running) : StatusTrue s := by
  rw [StatusTrue, running]
  trivial

/-- The three outcomes that end the run keep `pc` and memory, so what was fetched is still there to be blamed. -/
theorem statusTrue_of_step {s t : State} (next : step s = .next t) : StatusTrue t := by
  obtain ⟨running, outcome⟩ := stepOutcome_of_step next
  cases outcome with
  | unknown notFetched => exact ⟨rfl, rfl, decoder_eq_none_of_fetchInstr notFetched⟩
  | badIndex fetched bad => exact ⟨rfl, Instr.firstBad_ge bad, _, fetched, bad⟩
  | halts fetched => exact (fetchInstr_eq_hlt_iff s).mp fetched
  | continues fetched wellFormed notHlt =>
    exact statusTrue_of_running ((continues_status_pc fetched wellFormed notHlt).1.trans running)

theorem step_inv {s t : State} (inv : Inv s) (next : step s = .next t) : Inv t :=
  ⟨(step_mem next).symm ▸ inv.1, statusTrue_of_step next⟩

/-- Settles O43: a step keeps memory (`step_mem`) and gives a true run state (`statusTrue_of_step`). -/
theorem stepKeepsTheInvariant : Obligations.StepKeepsTheInvariant := fun _ _ => step_inv

/-- Settles O44: memory is canonical by `State.reset_wf`, and of a running state nothing is claimed. -/
theorem resetMeetsTheInvariant : Obligations.ResetMeetsTheInvariant := ⟨State.reset_wf, statusTrue_of_running rfl⟩

/-! ### What the host is told -/

theorem hostReport_eq_some_iff (s : State) (status : Status) (out : List Byte) :
    s.hostReport = some (status, out) ↔ Ended s ∧ s.status = status ∧ s.out = out := by
  by_cases running : s.status = .running <;> simp [State.hostReport, Ended, running]

theorem statusTrue_cases {s : State} (truthful : StatusTrue s) (ended : Ended s) :
    (s.status = .halted ∧ s.opcode = 0x01#8) ∨ ∃ c, s.status = .error c ∧ CauseTrue s c := by
  unfold StatusTrue at truthful
  match status : s.status with
  | .running => exact absurd status ended
  | .halted => exact .inl ⟨rfl, by rwa [status] at truthful⟩
  | .error c => exact .inr ⟨c, rfl, by rwa [status] at truthful⟩

/-- Settles O45: the run keeps the invariant (`step_inv`), and a status is reported only of an ended state. -/
theorem reportedStatusIsTrue : Obligations.ReportedStatusIsTrue := by
  intro n s status out inv report
  obtain ⟨-, truthful⟩ : Inv (runFor n s) := runFor_keeps (fun _ _ => step_inv) n inv
  obtain ⟨ended, rfl, -⟩ := (hostReport_eq_some_iff _ _ _).mp report
  exact statusTrue_cases truthful ended

/-- Settles O41: an ended state has no step (`runFor_of_ended`), and the report tests whether the core is running. -/
theorem terminalStateIsFrozenAndReported : Obligations.TerminalStateIsFrozenAndReported :=
  fun n _ => ⟨fun ended => ⟨runFor_of_ended ended n, if_neg ended⟩, fun running => if_pos running⟩

end Sys2Proof.Safety
end

section
/-! The dispatcher's ports (40_fetch_decode_dispatch.md R79, R82): the step is their commit, and the output grows by the
output port alone (10_state.md R18). -/

namespace Sys2Proof.Machine

/-! ### The dispatcher's outputs -/

theorem dispatcherOut_of_unknown {s : State} (running : s.status = .running) (notFetched : s.fetchInstr = none) :
    s.dispatcherOut = some (.fault (.unknownOpcode s.opcode s.pc)) := by
  simp only [State.dispatcherOut, running, notFetched]

theorem dispatcherOut_of_fetched {s : State} {i : Instr} (running : s.status = .running)
    (fetched : s.fetchInstr = some i) : s.dispatcherOut = some (handlerOf i s) := by
  simp only [State.dispatcherOut, running, fetched]

theorem dispatcherOut_of_ended {s : State} (ended : s.status ≠ .running) : s.dispatcherOut = none := by
  unfold State.dispatcherOut
  split
  · next running => exact absurd running ended
  · rfl
  · rfl

theorem dispatcherOut_of_running {s : State} (running : s.status = .running) :
    ∃ e, s.dispatcherOut = some e ∧ step s = .next (s.commit e) := by
  cases fetched : s.fetchInstr with
  | none => exact ⟨_, dispatcherOut_of_unknown running fetched, step_of_unknown running fetched⟩
  | some i =>
    exact ⟨_, dispatcherOut_of_fetched running fetched, (step_of_fetched running fetched).trans (exec_eq_commit i s)⟩

/-- Settles O40: `dispatcherOut_of_running` and `dispatcherOut_of_ended`. -/
theorem stepCommitsTheDispatcherOutputs : Obligations.StepCommitsTheDispatcherOutputs := by
  intro s
  by_cases running : s.status = .running
  · obtain ⟨e, driven, next⟩ := dispatcherOut_of_running running
    refine ⟨fun e' driven' => ?_, by simp [driven, running]⟩
    cases driven.symm.trans driven'
    exact next
  · have silent := dispatcherOut_of_ended running
    exact ⟨fun e driven => (nomatch silent.symm.trans driven), iff_of_true silent running⟩

/-! ### The output port -/

theorem outPort_of_running {s : State} (running : s.status = .running) (v : Byte) :
    s.outPort = some v ↔ ∃ (r : Byte) (h : r.toNat < 8), s.fetchInstr = some (.prn r) ∧ v = s.regs[r.toNat] := by
  cases fetched : s.fetchInstr with
  | none => simp [State.outPort, dispatcherOut_of_unknown running fetched]
  | some i => simp only [State.outPort, dispatcherOut_of_fetched running fetched, Option.bind_some, handlerOf_emit_iff,
      Option.some_inj]

theorem step_out {s t : State} (next : step s = .next t) : t.out = s.out ++ s.outPort.toList := by
  obtain ⟨running, -⟩ := step_next_cases next
  obtain ⟨e, driven, next'⟩ := dispatcherOut_of_running running
  cases next.symm.trans next'
  rw [State.commit_out, State.outPort, driven, Option.bind_some]

/-- Settles O39: the step is `step_out` and `outPort_of_running`; that a run keeps what was emitted is kept by each step. -/
theorem outputGrowsByThePortAlone : Obligations.OutputGrowsByThePortAlone := by
  refine ⟨fun s t next => ⟨step_out next, outPort_of_running (step_next_cases next).1⟩, fun n s =>
    runFor_keeps (P := (s.out <+: ·.out)) (fun u t kept next => kept.trans ⟨_, (step_out next).symm⟩) n ⟨[], ?_⟩⟩
  exact List.append_nil _

end Sys2Proof.Machine
end

section
/-! Registers and control flow (40_fetch_decode_dispatch.md R86): two runs from states that differ in registers and output
only go on in lockstep. -/

namespace Sys2Proof.Safety

open Sys2Proof.Machine

/-! ### The ports that steer are the same -/

/-- Two answers with the same advance and signal that both emit or both do not; the values may differ. -/
def SameSteering (e f : Effects) : Prop :=
  e.advance = f.advance ∧ e.signal = f.signal ∧ e.emit.isSome = f.emit.isSome

theorem SameSteering.withRegister {g h : RegIndex → Effects} (same : ∀ i, SameSteering (g i) (h i)) (operand pc : Byte) :
    SameSteering (withRegister operand pc g) (withRegister operand pc h) := by
  unfold Machine.withRegister
  cases regOperand operand with
  | none => exact ⟨rfl, rfl, rfl⟩
  | some i => exact same i

theorem handlerOf_sameSteering {s t : State} (pc : s.pc = t.pc) (i : Instr) :
    SameSteering (handlerOf i s) (handlerOf i t) := by
  cases i with
  | ldi r v =>
    simp only [handlerOf, handleLdi, pc]
    refine .withRegister (fun i => ?_) r t.pc
    exact ⟨rfl, rfl, rfl⟩
  | prn r =>
    simp only [handlerOf, handlePrn, pc]
    refine .withRegister (fun i => ?_) r t.pc
    exact ⟨rfl, rfl, rfl⟩
  | hlt => exact ⟨rfl, rfl, rfl⟩
  | mul a b =>
    simp only [handlerOf, handleMul, aluHandler, alu_mul, pc]
    refine .withRegister (fun ia => .withRegister (fun ib => ?_) b t.pc) a t.pc
    exact ⟨rfl, rfl, rfl⟩

/-! ### The step -/

theorem SameControl.fetchInstr {s t : State} (same : SameControl s t) :
    s.opcode = t.opcode ∧ s.fetchInstr = t.fetchInstr := by
  obtain ⟨pc, mem, -⟩ := same
  simp only [State.fetchInstr, State.opcode, State.operandA, State.operandB, State.memRead, pc, mem, true_and]

theorem SameControl.step {s t : State} (same : SameControl s t) (running : s.status = .running) :
    ∃ e f, SameSteering e f ∧ step s = .next (s.commit e) ∧ step t = .next (t.commit f) := by
  obtain ⟨opcode, fetch⟩ := same.fetchInstr
  obtain ⟨pc, -, status⟩ := same
  have running' : t.status = .running := status ▸ running
  cases fetched : s.fetchInstr with
  | none =>
    refine ⟨.fault _, .fault _, ?_, step_of_unknown running fetched, step_of_unknown running' (fetch ▸ fetched)⟩
    rw [opcode, pc]
    exact ⟨rfl, rfl, rfl⟩
  | some i =>
    exact ⟨_, _, handlerOf_sameSteering pc i, (step_of_fetched running fetched).trans (exec_eq_commit i s),
      (step_of_fetched running' (fetch ▸ fetched)).trans (exec_eq_commit i t)⟩

theorem SameControl.commit {s t : State} (same : SameControl s t) {e f : Effects} (steering : SameSteering e f) :
    SameControl (s.commit e) (t.commit f) := by
  obtain ⟨pc, mem, status⟩ := same
  obtain ⟨advance, signal, -⟩ := steering
  refine ⟨?_, ?_, ?_⟩
  · rw [State.commit_pc, State.commit_pc, advance]
    cases f.advance <;> simp [pc]
  · rw [State.commit_mem, State.commit_mem, mem]
  · rw [State.commit_status, State.commit_status, signal]
    cases f.signal <;> simp [status]

theorem SameSteering.commit_out_length {e f : Effects} (steering : SameSteering e f) (s t : State) :
    (s.commit e).out.length + t.out.length = (t.commit f).out.length + s.out.length := by
  obtain ⟨-, -, emit⟩ := steering
  have one : e.emit.toList.length = f.emit.toList.length := by
    rw [Option.length_toList, Option.length_toList, emit]
  simp only [State.commit_out, List.length_append]
  omega

/-! ### The run -/

theorem SameControl.runFor {s t : State} (same : SameControl s t) (n : Nat) :
    SameControl (runFor n s) (runFor n t) ∧
      (runFor n s).out.length + t.out.length = (runFor n t).out.length + s.out.length := by
  induction n generalizing s t with
  | zero => exact ⟨same, Nat.add_comm _ _⟩
  | succ n ih =>
    by_cases running : s.status = .running
    · obtain ⟨e, f, steering, nextS, nextT⟩ := same.step running
      obtain ⟨control, rest⟩ := ih (same.commit steering)
      have first := steering.commit_out_length s t
      rw [runFor_succ_of_next nextS, runFor_succ_of_next nextT]
      exact ⟨control, by omega⟩
    · have ⟨_, _, status⟩ := same
      have ended : t.status ≠ .running := status ▸ running
      rw [runFor_of_ended running, runFor_of_ended ended]
      exact ⟨same, Nat.add_comm _ _⟩

/-- Settles O46: `SameControl.runFor`, by induction on the steps; each pair of steps steers alike. -/
theorem registersNeverInfluenceControl : Obligations.RegistersNeverInfluenceControl :=
  fun n _ _ same => same.runFor n

end Sys2Proof.Safety
end

section
/-! Memory as data (20_memory.md R30, R40): a canonical list is its contents, and the program load. -/

namespace Sys2Proof.Machine

/-! ### The canonical form is its contents -/

theorem Memory.read_of_fresh {m : Memory} {a : Nat} (fresh : ∀ c ∈ m, c.1 ≠ a) : m.read a = Config.resetCell := by
  induction m with
  | nil => rfl
  | cons c rest ih =>
    rw [Memory.read, if_neg (fresh c List.mem_cons_self)]
    exact ih fun d hd => fresh d (List.mem_cons_of_mem c hd)

theorem Memory.read_of_mem {m : Memory} {c : Host.Cell} (sorted : m.Pairwise fun c d => c.1 < d.1) (listed : c ∈ m) :
    m.read c.1 = c.2 := by
  induction m with
  | nil => cases listed
  | cons d rest ih =>
    obtain ⟨above, tail⟩ := List.pairwise_cons.mp sorted
    rcases List.mem_cons.mp listed with rfl | later
    · exact if_pos rfl
    · rw [Memory.read, if_neg (Nat.ne_of_lt (above c later))]
      exact ih tail later

theorem Memory.mem_iff_read {m : Memory} (canonical : m.wf) (c : Host.Cell) :
    c ∈ m ↔ m.read c.1 = c.2 ∧ c.2 ≠ Config.resetCell := by
  obtain ⟨sorted, cells⟩ := canonical
  refine ⟨fun listed => ⟨Memory.read_of_mem sorted listed, (cells c listed).2⟩, fun ⟨read, notReset⟩ => ?_⟩
  obtain ⟨d, listed, address⟩ : ∃ d ∈ m, d.1 = c.1 := by
    by_contra unlisted
    exact notReset (read.symm.trans (Memory.read_of_fresh fun d listed same => unlisted ⟨d, listed, same⟩))
  have value : d.2 = c.2 := by rw [← Memory.read_of_mem sorted listed, address, read]
  exact Prod.ext address value ▸ listed

theorem Memory.read_outside {m : Memory} (canonical : m.wf) {a : Nat} (outside : Config.memSize ≤ a) :
    m.read a = Config.resetCell :=
  Memory.read_of_fresh fun c listed => Nat.ne_of_lt (Nat.lt_of_lt_of_le (canonical.2 c listed).1 outside)

/-- Settles O30: both lists have the same cells (`Memory.mem_iff_read`), and a strictly rising list is fixed by its cells. -/
theorem canonicalMemoryIsItsContents : Obligations.CanonicalMemoryIsItsContents := by
  intro m n canonicalM canonicalN contents
  have reads (a : Nat) : m.read a = n.read a := by
    rcases Nat.lt_or_ge a 256 with inside | outside
    · have same := contents (BitVec.ofNat 8 a)
      rwa [BitVec.toNat_ofNat, Nat.mod_eq_of_lt inside] at same
    · rw [Memory.read_outside canonicalM outside, Memory.read_outside canonicalN outside]
  have cells (c : Host.Cell) : c ∈ m ↔ c ∈ n := by
    rw [Memory.mem_iff_read canonicalM, Memory.mem_iff_read canonicalN, reads]
  have irreflexive : Std.Irrefl fun c d : Host.Cell => c.1 < d.1 := ⟨fun c => Nat.lt_irrefl c.1⟩
  have antisymmetric : Std.Antisymm fun c d : Host.Cell => c.1 < d.1 := ⟨fun c d up down => absurd up (Nat.lt_asymm down)⟩
  exact canonicalM.1.eq_of_mem_iff canonicalN.1 cells

/-! ### The program load -/

theorem Memory.read_load (m : Memory) (a : Nat) (image : List Byte) (b : Nat) :
    (m.load a image).read b = if a ≤ b ∧ b < a + image.length then image.getD (b - a) 0 else m.read b := by
  induction image generalizing m a with
  | nil => exact (if_neg (by simp)).symm
  | cons v rest ih =>
    rw [Memory.load, ih, Memory.read_write, List.length_cons]
    rcases Nat.lt_trichotomy b a with below | rfl | above
    · rw [if_neg (by omega), if_neg (by omega), if_neg (by omega)]
    · rw [if_neg (by omega), if_pos rfl, if_pos (by omega), Nat.sub_self, List.getD_cons_zero]
    · obtain ⟨k, rfl⟩ := Nat.exists_eq_add_of_lt above
      have here : a + k + 1 - (a + 1) = k := by omega
      have next : a + k + 1 - a = k + 1 := by omega
      rw [here, next, List.getD_cons_succ, if_neg (show a + k + 1 ≠ a by omega)]
      exact if_congr (by omega) rfl rfl

/-- The load starts at address 0, and an image read beyond its end is the zero that the load leaves there. -/
theorem memRead_of_launched (image : List Byte) (a : Byte) :
    State.memRead { State.reset with mem := State.reset.mem.load Config.loadAddress image } a = image.getD a.toNat 0 := by
  have inside : Config.loadAddress ≤ a.toNat ∧ a.toNat < Config.loadAddress + image.length ↔ a.toNat < image.length := by
    simp [Config.loadAddress]
  refine (Memory.read_load State.reset.mem Config.loadAddress image a.toNat).trans ?_
  by_cases written : a.toNat < image.length
  · rw [if_pos (inside.mpr written)]
    rfl
  · rw [if_neg (mt inside.mp written), List.getD_eq_default _ _ (Nat.le_of_not_lt written)]
    exact State.memRead_reset a

/-- Settles O32: the cells are `memRead_of_launched`, the form `Memory.load_wf`, and the size test is `launch`'s own. -/
theorem launchLoadsTheImageOrRefuses : Obligations.LaunchLoadsTheImageOrRefuses :=
  ⟨fun image fits => ⟨_, if_pos fits, memRead_of_launched image,
    Memory.load_wf Config.loadAddress image State.reset_wf ((Nat.zero_add image.length).symm ▸ fits), _, rfl⟩,
    fun _ long => if_neg (Nat.not_le.mpr long)⟩

/-- Settles O31: registers and memory by `State.getReg_reset` and `State.memRead_reset`, the rest by definition. -/
theorem resetLeavesTheStatedValues : Obligations.ResetLeavesTheStatedValues :=
  ⟨State.getReg_reset, rfl, State.memRead_reset, rfl, rfl⟩

end Sys2Proof.Machine
end

section
/-! The ALU (44_alu_mul.md R105 to R111): both operations are those of bytes, so its laws are theirs. -/

namespace Sys2Proof.Machine

/-- The exact sum modulo 256 is the sum of bytes (R107). -/
theorem alu_add (va vb : Byte) : alu .add va vb = some (va + vb) := by
  have reduced : BitVec.ofNat 8 ((va.toNat + vb.toNat) % 256) = va + vb :=
    BitVec.eq_of_toNat_eq (by rw [BitVec.toNat_ofNat, BitVec.toNat_add, Nat.mod_mod])
  rw [alu, reduced]

theorem decoder_aluOp {opcode : Byte} {d : Decoded} (known : decoder opcode = some d) :
    d.aluOp = none ∨ d.aluOp = some .mul := by
  rcases decoder_cases opcode with ⟨-, row⟩ | ⟨-, row⟩ | ⟨-, row⟩ | ⟨-, row⟩ | ⟨-, -, -, -, row⟩ <;>
    cases row.symm.trans known
  · exact .inl rfl
  · exact .inl rfl
  · exact .inl rfl
  · exact .inr rfl

/-- Settles O24: the sum is that of bytes (`alu_add`), and the table presents `MUL` at most (`decoder_aluOp`). -/
theorem aluAddsAndNoOpcodeSelectsIt : Obligations.AluAddsAndNoOpcodeSelectsIt :=
  ⟨fun va vb => ⟨va + vb, alu_add va vb, BitVec.toNat_add va vb⟩, fun _ _ => decoder_aluOp⟩

/-! ### `ALU.apply` -/

theorem State.aluApply_of_result {s : State} {op : AluOp} {ia ib : RegIndex} {result : Byte}
    (supported : alu op (s.getReg ia) (s.getReg ib) = some result) :
    s.aluApply op ia ib = .ok (s.setReg ia result) := by
  simp only [State.aluApply, supported]

theorem State.aluApply_of_unsupported {s : State} {op : AluOp} {ia ib : RegIndex}
    (unsupported : alu op (s.getReg ia) (s.getReg ib) = none) :
    s.aluApply op ia ib = .error (.unsupportedOperation (aluOpName op)) := by
  simp only [State.aluApply, unsupported]

/-- Settles O26: `MUL` is `exec_mul_ofNat`, whose advance is by three; `ALU.apply` follows the ALU's result. -/
theorem mulIsAluApplyThenAdvance : Obligations.MulIsAluApplyThenAdvance :=
  ⟨fun ia ib s => ⟨_, State.aluApply_of_result (alu_mul _ _), exec_mul_ofNat ia ib s⟩, fun _ _ _ name =>
    ⟨State.aluApply_of_result (alu_mul _ _), State.aluApply_of_result (alu_add _ _),
      State.aluApply_of_unsupported (op := .other name) rfl⟩⟩

/-- Settles O27: by `alu_mul` and `alu_add` the laws are those of byte arithmetic. -/
theorem arithmeticLawsModulo256 : Obligations.ArithmeticLawsModulo256 := by
  intro x y
  simp only [alu_mul, alu_add, Option.some_inj, exists_eq_left']
  exact ⟨BitVec.mul_zero, BitVec.zero_mul, BitVec.mul_one x, BitVec.mul_comm x y, BitVec.add_zero x, BitVec.add_comm x y,
    BitVec.toInt_mul x y, BitVec.toInt_add x y⟩

end Sys2Proof.Machine
end

section
/-! The result ports (60_exceptions.md R135), by the run state. -/

namespace Sys2Proof.Machine

variable {s : State}

theorem State.resultPorts_errPc : s.resultPorts.errPc = s.pc := by
  unfold State.resultPorts
  split <;> rfl

theorem State.resultPorts_of_running (status : s.status = .running) : s.resultPorts = ⟨0, 0, none, none, s.pc⟩ := by
  simp only [State.resultPorts, status]

theorem State.resultPorts_of_halted (status : s.status = .halted) : s.resultPorts = ⟨1, 0, none, none, s.pc⟩ := by
  simp only [State.resultPorts, status]

theorem State.resultPorts_of_unknownOpcode {opcode pc : Byte} (status : s.status = .error (.unknownOpcode opcode pc)) :
    s.resultPorts = ⟨2, 1, some opcode, none, s.pc⟩ := by
  simp only [State.resultPorts, status]

theorem State.resultPorts_of_unsupported {name : String} (status : s.status = .error (.unsupportedOperation name)) :
    s.resultPorts = ⟨2, 2, none, none, s.pc⟩ := by
  simp only [State.resultPorts, status]

theorem State.resultPorts_of_badIndex {index pc : Byte}
    (status : s.status = .error (.registerIndexOutOfRange index pc)) :
    s.resultPorts = ⟨2, 3, none, some index, s.pc⟩ := by
  simp only [State.resultPorts, status]

/-- Settles O47: one row of the table per run state. -/
theorem resultPortsEncodeTheStatus : Obligations.ResultPortsEncodeTheStatus := by
  refine fun s => ⟨State.resultPorts_errPc, fun running => ?_, fun halted => ?_, fun opcode pc error => ?_,
    fun name error => ?_, fun index pc error => ?_⟩
  · exact State.resultPorts_of_running running ▸ ⟨rfl, rfl⟩
  · exact State.resultPorts_of_halted halted ▸ ⟨rfl, rfl⟩
  · exact State.resultPorts_of_unknownOpcode error ▸ ⟨rfl, rfl, rfl⟩
  · exact State.resultPorts_of_unsupported error ▸ ⟨rfl, rfl⟩
  · exact State.resultPorts_of_badIndex error ▸ ⟨rfl, rfl, rfl⟩

end Sys2Proof.Machine
end
